-- ==== Sys2Proof/Word.lean ====
section
/-! DEFINITION. The types of the values the hardware names: the 8-bit word, the three fields of an
instruction word, and the index of a register (spec: 00_scope.md R6, 30_encoding.md R51). -/

namespace Sys2Proof

/-- An 8-bit unsigned value: a register, a data-memory cell or an instruction word (R6). -/
abbrev Byte := BitVec 8

/-- The opcode field, bits 7..5 of an instruction word (R51). -/
abbrev Opc := BitVec 3

/-- The raw operand1 field, bits 4..3 (R51). It names no register before `REGMAP` has mapped it. -/
abbrev Op1 := BitVec 2

/-- The operand2 field, bits 2..0 (R51): a register number, an immediate, an address or a target (R55). -/
abbrev Op2 := BitVec 3

/-- The index of one of the four registers R0..R3 (R11). -/
abbrev RegIdx := Fin 4

end Sys2Proof
end

