-- ==== Sys2Proof/Syntax.lean ====
section
/-! DEFINITION. The instructions: one constructor of `Instr` for each row of the opcode table, and the
opcode table as data (spec: 30_encoding.md R55, R58 to R61). -/

namespace Sys2Proof

/-- The ten operations that an opcode table can name (R60). -/
inductive Operation where
  | add | mov | sub | ld | st | jmp | jz | hlt | and | or
deriving DecidableEq, Repr

/-- An instruction: the operation and the two raw operand fields of its word (R51).
A field that the operation ignores (operand1 of JMP, both fields of HLT) is kept here and never read by
the meaning (R61; log entry 17). `op1` is raw: the meaning maps it by the run's `REGMAP` (R53, R54). -/
inductive Instr where
  /-- `ADD Rd,Rs` (R90) -/
  | add (op1 : Op1) (op2 : Op2)
  /-- `MOV Rd,#v` (R91) -/
  | mov (op1 : Op1) (op2 : Op2)
  /-- `SUB Rd,Rs` (R92) -/
  | sub (op1 : Op1) (op2 : Op2)
  /-- `LD Rd,a` (R100) -/
  | ld (op1 : Op1) (op2 : Op2)
  /-- `ST Rd,a` (R101) -/
  | st (op1 : Op1) (op2 : Op2)
  /-- `JMP t` (R110) -/
  | jmp (op1 : Op1) (op2 : Op2)
  /-- `JZ Rd,t` (R111) -/
  | jz (op1 : Op1) (op2 : Op2)
  /-- `HLT` (R112) -/
  | hlt (op1 : Op1) (op2 : Op2)
  /-- `AND Rd,Rs` (R120) -/
  | and (op1 : Op1) (op2 : Op2)
  /-- `OR Rd,Rs` (R121) -/
  | or (op1 : Op1) (op2 : Op2)
deriving DecidableEq, Repr

/-- The operation an instruction performs. -/
def Instr.operation : Instr → Operation
  | .add _ _ => .add
  | .mov _ _ => .mov
  | .sub _ _ => .sub
  | .ld _ _ => .ld
  | .st _ _ => .st
  | .jmp _ _ => .jmp
  | .jz _ _ => .jz
  | .hlt _ _ => .hlt
  | .and _ _ => .and
  | .or _ _ => .or

/-- The raw operand1 field of an instruction's word. -/
def Instr.op1 : Instr → Op1
  | .add a _ | .mov a _ | .sub a _ | .ld a _ | .st a _ | .jmp a _ | .jz a _ | .hlt a _
  | .and a _ | .or a _ => a

/-- The operand2 field of an instruction's word. -/
def Instr.op2 : Instr → Op2
  | .add _ b | .mov _ b | .sub _ b | .ld _ b | .st _ b | .jmp _ b | .jz _ b | .hlt _ b
  | .and _ b | .or _ b => b

/-- `OPTABLE`: for each opcode 0..7 an operation, or nothing (`unassigned`) (R60). -/
abbrev OpTable := Vector (Option Operation) 8

end Sys2Proof
end

