-- ==== Sys2Proof/Config.lean ====
section
/-! DEFINITION. What is fixed for a whole run (spec: 00_scope.md R3 to R5, R7 and the parameter table of
its section 4), and the free value that `draw8()` stands for. -/

namespace Sys2Proof

/-- `PROFILE`: which of the two opcode tables of the spec is used (R3). -/
inductive Profile where
  | A | B
deriving DecidableEq, Repr

/-- `REGMAP`: how the raw operand1 field becomes a register index (R4). -/
inductive RegMap where
  | identity | remapped
deriving DecidableEq, Repr

/-- `SRC2_HIGH`: what reading the second source register numbered 4..7 does (R56). -/
inductive Src2High where
  /-- a free byte, fresh at each read: the spec's default -/
  | draw
  /-- the register numbered `op2 mod 4` -/
  | truncate
  /-- the model-level fault `Src2IndexOutOfRange` -/
  | fault
deriving DecidableEq, Repr

/-- The configuration of one run, sampled at reset and changed by nothing until the next reset (R5).
`optable` stands for `PROFILE` as well: a profile is chosen by choosing its table (R60, R170). -/
structure Config where
  optable : OpTable
  regmap : RegMap
  src2High : Src2High
  progCapacity : Nat
deriving DecidableEq, Repr

/-- `draw8()`: the n-th free byte of a run, "any 8-bit value, chosen afresh at every such read and under
no law" (R56; 00_scope.md section 5). It has no body, so no proof can know a value of it (log entry 4). -/
opaque Config.drawByte : Nat → Byte

/-- `PC_WIDTH`: the least width in bits that holds every value `0..max(PROG_CAPACITY, 7)`
(R15, 90_conflicts.md C9). The model's `pc` is a natural number; the bound is an invariant (log entry 7). -/
def Config.pcWidth (c : Config) : Nat := Nat.log2 (max c.progCapacity 7) + 1

end Sys2Proof
end

