-- ==== Sys2Proof/WellFormed.lean ====
section
/-! DEFINITION. The static checks: an instruction against the opcode table, a configuration, and a program
against the capacity (spec: 30_encoding.md R58 to R60; 00_scope.md R7). The widths of an instruction's
fields are in their types, so the table is all that is left to check of an instruction. -/

namespace Sys2Proof

/-- An instruction is well formed under a table that assigns its operation to some opcode: `JZ` is none
of Profile B and `AND` none of Profile A (R58, R59). -/
def Instr.wf (t : OpTable) (i : Instr) : Bool := t.toList.contains (some i.operation)

/-- No operation stands at two opcodes of the table, as in the two tables of the spec (R58, R59). -/
def OpTable.oneOpcodeEach (t : OpTable) : Bool := (t.toList.filter Option.isSome).Nodup

/-- `PROG_CAPACITY` is a positive integer (00_scope.md section 4). -/
def Config.wf (c : Config) : Bool := decide (0 < c.progCapacity)

/-- The CORE requires `0 <= len <= PROG_CAPACITY` (R7). -/
def Config.fits (c : Config) (prog : List Byte) : Bool := decide (prog.length ≤ c.progCapacity)

end Sys2Proof
end

