-- ==== Sys2Proof/Decode.lean ====
section
/-! DEFINITION. The decoder and the encoder (spec: 30_encoding.md R50 to R52, R58 to R62, 40_control_unit.md
R72, R73): the three fields of a word, the two opcode tables, and the instruction a word stands for. Bit 7 is
the most significant bit of a word (92_eei_decisions.md D1; log entry 11). -/

namespace Sys2Proof

/-- `opc = w[7:5]` (R51). -/
def fieldOpc (w : Byte) : Opc := w.extractLsb' 5 3

/-- `op1_raw = w[4:3]` (R51). -/
def fieldOp1 (w : Byte) : Op1 := w.extractLsb' 3 2

/-- `op2 = w[2:0]` (R51). -/
def fieldOp2 (w : Byte) : Op2 := w.extractLsb' 0 3

/-- The word with the given fields, from the most significant down (R51). -/
def composeWord (opc : Opc) (op1 : Op1) (op2 : Op2) : Byte := opc ++ op1 ++ op2

/-- Profile A (R58). -/
def tableA : OpTable :=
  #v[some .add, some .mov, some .sub, some .ld, some .st, some .jmp, some .jz, some .hlt]

/-- Profile B: opcodes 000 to 101 as in Profile A, then AND and OR (R59). -/
def tableB : OpTable :=
  #v[some .add, some .mov, some .sub, some .ld, some .st, some .jmp, some .and, some .or]

/-- `table(PROFILE)` (R60). -/
def profileTable : Profile → OpTable
  | .A => tableA
  | .B => tableB

/-- `OPTABLE[opc]` (R60, R73). -/
def OpTable.lookup (t : OpTable) (opc : Opc) : Option Operation := t[opc.toNat]'(opc.isLt)

/-- The instruction made of an operation and the two raw fields. -/
def buildInstr (op : Operation) (a : Op1) (b : Op2) : Instr :=
  match op with
  | .add => .add a b
  | .mov => .mov a b
  | .sub => .sub a b
  | .ld => .ld a b
  | .st => .st a b
  | .jmp => .jmp a b
  | .jz => .jz a b
  | .hlt => .hlt a b
  | .and => .and a b
  | .or => .or a b

/-- Why a word stands for no instruction. -/
inductive DecodeReject where
  /-- `OPTABLE` leaves the opcode unassigned; the control unit then dispatches UNKNOWN (R73, R80). -/
  | unassignedOpcode (opc : Opc)
deriving DecidableEq, Repr

/-- The decoder, total on all 256 words: the opcode alone selects the operation (R52, R60, R73). -/
def decode (t : OpTable) (w : Byte) : Except DecodeReject Instr :=
  match t.lookup (fieldOpc w) with
  | some op => .ok (buildInstr op (fieldOp1 w) (fieldOp2 w))
  | none => .error (.unassignedOpcode (fieldOpc w))

/-- The eight opcodes, lowest first. -/
def allOpcodes : List Opc := [0, 1, 2, 3, 4, 5, 6, 7]

/-- The lowest opcode the table assigns to an operation, if there is one. -/
def OpTable.opcodeOf (t : OpTable) (op : Operation) : Option Opc :=
  allOpcodes.find? fun k => t.lookup k == some op

/-- The encoder: the word of an instruction that is well formed under the table, `w = 32*opc + 8*op1_raw + op2`
(R51, R64). It answers nothing for an instruction the table has no opcode for. -/
def encode (t : OpTable) (i : Instr) : Option Byte :=
  (t.opcodeOf i.operation).map fun k => composeWord k i.op1 i.op2

/-- The one word (R50) of an instruction whose bits are `w`; bits from `nbits` up are 0. -/
def wordOfTable (nbits w : Nat) : Byte := BitVec.ofNat 8 (w % 2 ^ nbits)

/-- What the decoder reads from an opcode-table row's word, under the table of `State.reset`, Profile A
(log entries 1 and 15: the words of AND and OR are the words of JZ and HLT, and only a table tells them apart).
An instruction has 8 bits (R50): a longer one is none. -/
def decodeTableWord (nbits w : Nat) : Option Instr :=
  if nbits ≤ 8 then (decode tableA (wordOfTable nbits w)).toOption else none

end Sys2Proof
end

