-- ==== Sys2Proof/Machine/State.lean ====
section
/-! DEFINITION. The state of one instance of the CORE, the records of its trace, and why a step can stop
(spec: 10_state.md; 45_trace.md R130, R131; 00_scope.md R5, R7). -/

namespace Sys2Proof.Machine

/-- Data memory: the cells that do not hold what an unlisted cell reads as (`Memory.unlisted`, log entry 3). -/
abbrev Memory := List Host.Cell

/-- One record of the trace: its kind and its numeric fields, in the order of R131's table, the register
number that two places of a template print being one field (R130). `rd` is the resolved register (R132),
`op2` the unmapped field (R133). -/
inductive TraceRecord where
  | add (rd : RegIdx) (op2 : Op2) (r : Byte)
  | mov (rd : RegIdx) (op2 : Op2)
  | sub (rd : RegIdx) (op2 : Op2) (r : Byte)
  | ld (rd : RegIdx) (op2 : Op2) (v : Byte)
  | st (op2 : Op2) (rd : RegIdx) (v : Byte)
  | jmp (op2 : Op2)
  | jzTaken (rd : RegIdx) (op2 : Op2)
  | jzNotTaken (rd : RegIdx)
  | hlt
  | and (rd : RegIdx) (op2 : Op2) (r : Byte)
  | or (rd : RegIdx) (op2 : Op2) (r : Byte)
  | unknown (opc : Opc)
deriving DecidableEq, Repr

/-- The state of one instance. `x`, `mem`, `pc` and `running` are all of its architectural state (R10).
`prog` and `cfg` are the parameters of the run, which nothing changes during it (R5, R10, R21). `trace` is the
output, oldest record first (R22, R130). `draws` is the model's own count of the free bytes given so far. -/
structure State where
  x : Vector Byte 4
  mem : Memory
  pc : Nat
  running : Bool
  prog : List Byte
  cfg : Config
  trace : List TraceRecord
  draws : Nat
deriving DecidableEq, Repr

/-- Why the machine stops. The hardware itself raises no exception (R150). -/
inductive Fault where
  /-- Raised by ADD, SUB, AND and OR with `op2` in 4..7 under the setting `SRC2_HIGH = fault` alone (R56,
  R151). Safe: the run has then no next state to claim anything of. -/
  | src2IndexOutOfRange (op2 : Op2)
deriving DecidableEq, Repr

/-- What the model gives no meaning to. -/
inductive Refusal where
  /-- An instruction of the opcode table without a meaning. No arm of `exec` answers it. Safe. -/
  | notModelled (mnemonic : String)
  /-- Answered by `launch` alone: the program is longer than `PROG_CAPACITY`, or the capacity is not
  positive, so the launch is outside the model (R7, 90_conflicts.md C7). Safe. -/
  | launchOutsideModel
deriving DecidableEq, Repr

/-- The machine right after a reset with the spec's default inputs and nothing loaded: registers and memory
zero (R24, R25: defaults, log entries 2 and 3), `pc = 0` (R26), `running = true` (R27), the trace empty (R170).
The spec names no default for `PROFILE` and `REGMAP`: Profile A and identity are the model's (log entry 1).
`launch` (Machine/Launch.lean) is the reset with every other input. -/
def State.reset : State where
  x := #v[0, 0, 0, 0]
  mem := []
  pc := 0
  running := true
  prog := []
  cfg := { optable := tableA, regmap := .identity, src2High := .draw, progCapacity := 256 }
  trace := []
  draws := 0

end Sys2Proof.Machine
end

