-- ==== Sys2Proof/Machine/Ops.lean ====
section
/-! DEFINITION. The operations every meaning is made of: the register file, the data memory, the trace sink and
the program counter (spec: 10_state.md R11, R20; 20_memory.md R31, R35; 40_control_unit.md R74 to R77;
45_trace.md R130). There is no taking of an exception and no return from one among them, because the hardware
has neither (60_exceptions.md R150, R154, R155). -/

namespace Sys2Proof.Machine

/-- A read of register `i` (R11). No register is hard-wired or has an alias (R14). -/
def readReg (i : RegIdx) (s : State) : Byte := s.x[i]

/-- A write of register `i`, which changes no other register (R11). -/
def writeReg (i : RegIdx) (v : Byte) (s : State) : State := { s with x := s.x.set i v }

/-- How many cells the data space has, at addresses 0..7 (R20, R37). -/
def dataCells : Nat := 8

/-- What a cell reads as that the list of cells does not name: the default of `MEM_init` (R25; log entry 3). -/
def Memory.unlisted : Byte := 0

/-- The content of one cell (R31). -/
def Memory.read : Memory → Nat → Byte
  | [], _ => Memory.unlisted
  | (b, u) :: m, a => if a = b then u else Memory.read m a

/-- The list without an entry for cell `a`. -/
def Memory.erase (m : Memory) (a : Nat) : Memory := m.filter fun c => c.1 != a

/-- The list with an entry for cell `a` at its place, before the first higher address. -/
def Memory.insert : Memory → Nat → Byte → Memory
  | [], a, v => [(a, v)]
  | (b, u) :: m, a, v => if a < b then (a, v) :: (b, u) :: m else (b, u) :: Memory.insert m a v

/-- A write of one cell, which changes no other cell (R31). It keeps the canonical form: a cell that now
holds what an unlisted one reads as is listed no more. -/
def Memory.write (m : Memory) (a : Nat) (v : Byte) : Memory :=
  if v = Memory.unlisted then Memory.erase m a else Memory.insert (Memory.erase m a) a v

/-- The canonical form: addresses strictly rising and inside the data space, no entry equal to what an unlisted
cell reads as. Equal memories are then equal lists. -/
abbrev Memory.wf (m : Memory) : Prop :=
  m.Pairwise (fun c d => c.1 < d.1) ∧ ∀ c ∈ m, c.1 < dataCells ∧ c.2 ≠ Memory.unlisted

/-- The memory whose cells from `base` on hold the given bytes; at base 0, `MEM_init` (R25). -/
def Memory.ofBytes (base : Nat) : List Byte → Memory
  | [] => []
  | v :: vs =>
    if v = Memory.unlisted then Memory.ofBytes (base + 1) vs else (base, v) :: Memory.ofBytes (base + 1) vs

/-- `MemRead(a, 1)` (R31). A read changes nothing (R35). Instructions form addresses 0..7 only (R37, R102), so no
access is out of range. -/
def memRead (a : Nat) (s : State) : Byte := Memory.read s.mem a

/-- `MemWrite(a, 1, v)` (R31). -/
def memWrite (a : Nat) (v : Byte) (s : State) : State := { s with mem := Memory.write s.mem a v }

/-- What an operation does to `pc` (R74). -/
inductive PcPolicy where
  | increment
  | jumpTo (target : Nat)
  | halt
deriving DecidableEq, Repr

/-- The one update of `pc` in a step (R75). That `pc` keeps the index of a HLT is 92_eei_decisions.md D6
(log entry 8). -/
def applyPc (p : PcPolicy) (s : State) : State :=
  match p with
  | .increment => { s with pc := s.pc + 1 }
  | .jumpTo t => { s with pc := t }
  | .halt => s

/-- `emit`: one record is appended to the trace and nothing else changes (R130). -/
def emit (r : TraceRecord) (s : State) : State := { s with trace := s.trace ++ [r] }

/-- The end of every dispatched operation: emit its one record (R77), then update `pc` (R75, R76). -/
def retire (r : TraceRecord) (p : PcPolicy) (s : State) : State := applyPc p (emit r s)

end Sys2Proof.Machine
end

