-- ==== Sys2Proof/Machine/ControlUnit.lean ====
section
/-! DEFINITION. The control unit around the dispatch: the continuation condition, the fetch, the default branch
for an unassigned opcode, the phases, and what happens after the end of a run (spec: 40_control_unit.md R70, R71,
R78 to R83). -/

namespace Sys2Proof.Machine

/-- The continuation condition `running = true and pc < len` (R70). -/
def canStep (s : State) : Bool := s.running && decide (s.pc < s.prog.length)

/-- The fetch: `prog[pc]`, and only when the continuation condition holds (R36, R42, R71). -/
def fetch (s : State) : Option Byte := if canStep s then s.prog[s.pc]? else none

/-- The default branch UNKNOWN: log a diagnostic, advance `pc` by 1, change nothing else (R80). -/
def execUnknown (opc : Opc) (s : State) : Host.Outcome State Fault Refusal :=
  .next (retire (.unknown opc) .increment s)

/-- What the control unit does with a word that stands for no instruction (R73). -/
def execRejected (r : DecodeReject) (s : State) : Host.Outcome State Fault Refusal :=
  match r with
  | .unassignedOpcode opc => execUnknown opc s

/-- After the end of a run all state is held and nothing is emitted (R79; log entry 9). -/
def hold (s : State) : Host.Outcome State Fault Refusal := .next s

/-- The phases of the control unit, derived from `running`, `pc` and `len` (R83). `halted` and `exhausted` are
also the two outcomes of a run (R78). -/
inductive Phase where
  | run | halted | exhausted
deriving DecidableEq, Repr

/-- The phase a state is in (R83). -/
def phase (s : State) : Phase :=
  if s.running then (if s.pc < s.prog.length then .run else .exhausted) else .halted

/-- The program with `w` at index `pc`, where a step fetches; indices between its old end and `pc` hold 0. -/
def placeWord (prog : List Byte) (pc : Nat) (w : Byte) : List Byte :=
  prog.take pc ++ List.replicate (pc - prog.length) 0 ++ w :: prog.drop (pc + 1)

end Sys2Proof.Machine
end

