-- ==== Sys2Proof/Machine/Operands.lean ====
section
/-! DEFINITION. Every operand form: the register that operand1 names, and the four roles of operand2
(spec: 30_encoding.md R53 to R57; 42_load_store.md R102; 43_control_transfer.md R113). -/

namespace Sys2Proof.Machine

/-- `regmap(REGMAP, op1_raw)`: the identity policy (R53); the remapped policy, in which `01` is R0, `11` is
R1, and `00` and `10` fall back to R0 (R54). -/
def regmap (m : RegMap) (op1 : Op1) : RegIdx :=
  match m with
  | .identity => op1.toFin
  | .remapped => if op1 = 0b11#2 then 1 else 0

/-- `rd`, the register that operand1 resolves to under the run's policy. -/
def rdOf (op1 : Op1) (s : State) : RegIdx := regmap s.cfg.regmap op1

/-- `draw8()`: the next free byte (R56), and the state in which it is used up. -/
def draw8 (s : State) : Byte × State := (Config.drawByte s.draws, { s with draws := s.draws + 1 })

/-- `src2(op2)`: the register numbered `op2`, unmapped (R55), for 0..3; for 4..7 what `SRC2_HIGH` says (R56). -/
def src2 (op2 : Op2) (s : State) : Except Fault (Byte × State) :=
  if h : op2.toNat < 4 then .ok (readReg ⟨op2.toNat, h⟩ s, s)
  else match s.cfg.src2High with
    | .draw => .ok (draw8 s)
    | .truncate => .ok (readReg ⟨op2.toNat % 4, Nat.mod_lt _ (by decide)⟩ s, s)
    | .fault => .error (.src2IndexOutOfRange op2)

/-- MOV's immediate, `zext_8(op2)` (R57). -/
def immediate (op2 : Op2) : Byte := op2.zeroExtend 8

/-- The effective address of LD and ST: absolute, `EA = op2` (R102). -/
def effAddr (op2 : Op2) : Nat := op2.toNat

/-- The target of JMP and JZ: an absolute program index (R113). -/
def jumpTarget (op2 : Op2) : Nat := op2.toNat

end Sys2Proof.Machine
end

