-- ==== Sys2Proof/Machine/Flags.lean ====
section
/-! DEFINITION. The results of the arithmetic and bitwise operations and the one test. The hardware has no flag
and no condition code (10_state.md R18), so nothing here writes one: JZ tests the register itself
(43_control_transfer.md R111). Arithmetic is unsigned and wraps modulo 256 (41_arith_move.md R93). -/

namespace Sys2Proof.Machine

/-- `a +_8 b = (a + b) mod 256` (R90, R93). -/
def add8 (a b : Byte) : Byte := a + b

/-- `a -_8 b = (a - b) mod 256`, in 0..255 (R92, R93). -/
def sub8 (a b : Byte) : Byte := a - b

/-- Bit `i` of the result is bit `i` of `a` and bit `i` of `b` (R120). -/
def and8 (a b : Byte) : Byte := a &&& b

/-- Bit `i` of the result is bit `i` of `a` or bit `i` of `b` (R121). -/
def or8 (a b : Byte) : Byte := a ||| b

/-- JZ's test, on all eight bits of the register (R111). -/
def isZero (a : Byte) : Bool := a == 0

/-- ADD, SUB, AND and OR share one shape: read `x[rd]` and `src2(op2)`, combine them, write `x[rd]`, emit the
record with the new value, advance `pc` (R90, R92, R120, R121). Both sources are read before the write (R76). -/
def twoSource (f : Byte → Byte → Byte) (record : RegIdx → Op2 → Byte → TraceRecord)
    (op1 : Op1) (op2 : Op2) (s : State) : Host.Outcome State Fault Refusal :=
  match src2 op2 s with
  | .error e => .fault e
  | .ok (b, s') =>
    let rd := rdOf op1 s
    let r := f (readReg rd s) b
    .next (retire (record rd op2 r) .increment (writeReg rd r s'))

end Sys2Proof.Machine
end

