-- ==== Sys2Proof/Machine/ArithMove.lean ====
section
/-! DEFINITION. ADD, MOV, SUB (spec: 41_arith_move.md R90 to R93). -/

namespace Sys2Proof.Machine

/-- `ADD Rd,Rs`: `x[rd] <- x[rd] +_8 src2(op2)` (R90). -/
def execAdd (op1 : Op1) (op2 : Op2) (s : State) : Host.Outcome State Fault Refusal :=
  twoSource add8 .add op1 op2 s

/-- `MOV Rd,#v`: `x[rd] <- zext_8(op2)` (R91). -/
def execMov (op1 : Op1) (op2 : Op2) (s : State) : Host.Outcome State Fault Refusal :=
  let rd := rdOf op1 s
  .next (retire (.mov rd op2) .increment (writeReg rd (immediate op2) s))

/-- `SUB Rd,Rs`: `x[rd] <- x[rd] -_8 src2(op2)` (R92). -/
def execSub (op1 : Op1) (op2 : Op2) (s : State) : Host.Outcome State Fault Refusal :=
  twoSource sub8 .sub op1 op2 s

end Sys2Proof.Machine
end

