-- ==== Sys2Proof/Machine/Bitwise.lean ====
section
/-! DEFINITION. AND, OR, the operations of Profile B (spec: 44_bitwise.md R120, R121). -/

namespace Sys2Proof.Machine

/-- `AND Rd,Rs`: `x[rd] <- x[rd] & src2(op2)` (R120). -/
def execAnd (op1 : Op1) (op2 : Op2) (s : State) : Host.Outcome State Fault Refusal :=
  twoSource and8 .and op1 op2 s

/-- `OR Rd,Rs`: `x[rd] <- x[rd] | src2(op2)` (R121). -/
def execOr (op1 : Op1) (op2 : Op2) (s : State) : Host.Outcome State Fault Refusal :=
  twoSource or8 .or op1 op2 s

end Sys2Proof.Machine
end

