-- ==== Sys2Proof/Machine/ControlTransfer.lean ====
section
/-! DEFINITION. JMP, JZ, HLT (spec: 43_control_transfer.md R110 to R114). -/

namespace Sys2Proof.Machine

/-- `JMP t`: `pc <- op2`; operand1 is ignored (R110, R61). -/
def execJmp (_op1 : Op1) (op2 : Op2) (s : State) : Host.Outcome State Fault Refusal :=
  .next (retire (.jmp op2) (.jumpTo (jumpTarget op2)) s)

/-- `JZ Rd,t`: `pc <- op2` if `x[rd] = 0`, else `pc + 1` (R111). -/
def execJz (op1 : Op1) (op2 : Op2) (s : State) : Host.Outcome State Fault Refusal :=
  let rd := rdOf op1 s
  if isZero (readReg rd s) then .next (retire (.jzTaken rd op2) (.jumpTo (jumpTarget op2)) s)
  else .next (retire (.jzNotTaken rd) .increment s)

/-- `HLT`: `running <- false`; both operand fields are ignored (R112, R61). -/
def execHlt (_op1 : Op1) (_op2 : Op2) (s : State) : Host.Outcome State Fault Refusal :=
  .next (retire .hlt .halt { s with running := false })

end Sys2Proof.Machine
end

