-- ==== Sys2Proof/Machine/LoadStore.lean ====
section
/-! DEFINITION. LD, ST (spec: 42_load_store.md R100 to R102). -/

namespace Sys2Proof.Machine

/-- `LD Rd,a`: `x[rd] <- MemRead(op2, 1)` (R100). -/
def execLd (op1 : Op1) (op2 : Op2) (s : State) : Host.Outcome State Fault Refusal :=
  let rd := rdOf op1 s
  let v := memRead (effAddr op2) s
  .next (retire (.ld rd op2 v) .increment (writeReg rd v s))

/-- `ST Rd,a`: `MemWrite(op2, 1, x[rd])` (R101). -/
def execSt (op1 : Op1) (op2 : Op2) (s : State) : Host.Outcome State Fault Refusal :=
  let rd := rdOf op1 s
  let v := readReg rd s
  .next (retire (.st op2 rd v) .increment (memWrite (effAddr op2) v s))

end Sys2Proof.Machine
end

