-- ==== Sys2Proof/Machine/Dispatch.lean ====
section
/-! DEFINITION. The dispatch: one arm for each instruction (spec: 40_control_unit.md R73). -/

namespace Sys2Proof.Machine

/-- What an instruction does: its effect, its one trace record and its update of `pc` (R73 to R76). -/
def exec (i : Instr) (s : State) : Host.Outcome State Fault Refusal :=
  match i with
  -- 41_arith_move.md
  | .add op1 op2 => Sys2Proof.Machine.execAdd op1 op2 s
  | .mov op1 op2 => Sys2Proof.Machine.execMov op1 op2 s
  | .sub op1 op2 => Sys2Proof.Machine.execSub op1 op2 s
  -- 42_load_store.md
  | .ld op1 op2 => Sys2Proof.Machine.execLd op1 op2 s
  | .st op1 op2 => Sys2Proof.Machine.execSt op1 op2 s
  -- 43_control_transfer.md
  | .jmp op1 op2 => Sys2Proof.Machine.execJmp op1 op2 s
  | .jz op1 op2 => Sys2Proof.Machine.execJz op1 op2 s
  | .hlt op1 op2 => Sys2Proof.Machine.execHlt op1 op2 s
  -- 44_bitwise.md
  | .and op1 op2 => Sys2Proof.Machine.execAnd op1 op2 s
  | .or op1 op2 => Sys2Proof.Machine.execOr op1 op2 s

end Sys2Proof.Machine
end

