-- ==== Sys2Proof/Machine/Step.lean ====
section
/-! DEFINITION. One step of the machine (spec: 40_control_unit.md R70 to R76, R85, and its section 6). -/

namespace Sys2Proof.Machine

/-- One pass of the loop: test the condition, fetch, decode, dispatch (R76). A step is atomic (R85). When the
condition fails no step is taken and the state is held (R78, R79). -/
def step (s : State) : Host.Outcome State Fault Refusal :=
  match fetch s with
  | none => hold s
  | some w =>
    match decode s.cfg.optable w with
    | .ok i => exec i s
    | .error r => execRejected r s

/-- The state with the word of an opcode-table row stored where `step` fetches next, and running, so that the
very next step runs it. It stands for the out-of-scope loader (R2, R172; log entry 10). -/
def State.withFetchWord (s : State) (nbits w : Nat) : State :=
  { s with running := true, prog := placeWord s.prog s.pc (wordOfTable nbits w) }

end Sys2Proof.Machine
end

