-- ==== Sys2Proof/Machine/Trace.lean ====
section
/-! DEFINITION. The literal text of the trace (spec: 45_trace.md R131 to R136). The order in which the fields
fill a template, the number format and the line feed are 92_eei_decisions.md D9 to D11 (log entry 13). -/

namespace Sys2Proof.Machine

/-- A `%d` place: an unsigned decimal numeral, no padding, no leading zero (R135). -/
def decimal (n : Nat) : String := n.repr

/-- A register's name with the number given: `R%d`. -/
def regText (n : Nat) : String := "R" ++ decimal n

/-- `R%d = R%d <op> R%d = %d`, the shape of `Add`, `Sub`, `And` and `Or` (R131). -/
def twoSourceText (op : String) (rd : RegIdx) (op2 : Op2) (r : Byte) : String :=
  regText rd.val ++ " = " ++ regText rd.val ++ " " ++ op ++ " " ++ regText op2.toNat ++ " = " ++ decimal r.toNat

/-- The text of one record, without its line feed (R131 to R135). -/
def recordText : TraceRecord → String
  | .add rd op2 r => twoSourceText "+" rd op2 r
  | .mov rd op2 => regText rd.val ++ " = " ++ decimal op2.toNat
  | .sub rd op2 r => twoSourceText "-" rd op2 r
  | .ld rd op2 v => regText rd.val ++ " = MEM[" ++ decimal op2.toNat ++ "] = " ++ decimal v.toNat
  | .st op2 rd v => "MEM[" ++ decimal op2.toNat ++ "] = " ++ regText rd.val ++ " = " ++ decimal v.toNat
  | .jmp op2 => "JMP to " ++ decimal op2.toNat
  | .jzTaken rd op2 => "JZ: " ++ regText rd.val ++ " == 0, jump to " ++ decimal op2.toNat
  | .jzNotTaken rd => "JZ: " ++ regText rd.val ++ " != 0, no jump"
  | .hlt => "HLT: Halting"
  | .and rd op2 r => twoSourceText "&" rd op2 r
  | .or rd op2 r => twoSourceText "|" rd op2 r
  | .unknown opc => "Unknown opcode: " ++ decimal opc.toNat

/-- The text of a whole trace: each record is one line, ended by a line feed (R135). -/
def traceText : List TraceRecord → String
  | [] => ""
  | r :: rs => recordText r ++ "\n" ++ traceText rs

end Sys2Proof.Machine
end

