-- ==== Sys2Proof/Machine/Assembler.lean ====
section
/-! DEFINITION. The spec's written form of instructions (30_encoding.md R64, R66): the raw operand1 code of a
register, and the text of an instruction with its resolved register. The written form is the spec's own
(92_eei_decisions.md D16); no toolchain exists. -/

namespace Sys2Proof.Machine

/-- `code(d)`: the raw operand1 code that an assembler writes for register `d`. Under `remapped`, R0 has the
canonical code `01`, R1 the code `11`, and R2 and R3 have none (R64, R66). -/
def regCode (m : RegMap) (d : RegIdx) : Option Op1 :=
  match m with
  | .identity => some (BitVec.ofFin d)
  | .remapped => if d = 0 then some 0b01 else if d = 1 then some 0b11 else none

/-- The text of an instruction under a register-mapping policy (R64, R66): operand1 is printed as the register it
resolves to, a second source as `R` and its number, also for 4..7 (`ADD R0,R5` stands for `op2 = 5`). -/
def asmText (m : RegMap) (i : Instr) : String :=
  let rd := regText (regmap m i.op1).val
  let n := decimal i.op2.toNat
  let rs := regText i.op2.toNat
  match i with
  | .add _ _ => "ADD " ++ rd ++ "," ++ rs
  | .mov _ _ => "MOV " ++ rd ++ ",#" ++ n
  | .sub _ _ => "SUB " ++ rd ++ "," ++ rs
  | .ld _ _ => "LD " ++ rd ++ "," ++ n
  | .st _ _ => "ST " ++ rd ++ "," ++ n
  | .jmp _ _ => "JMP " ++ n
  | .jz _ _ => "JZ " ++ rd ++ "," ++ n
  | .hlt _ _ => "HLT"
  | .and _ _ => "AND " ++ rd ++ "," ++ rs
  | .or _ _ => "OR " ++ rd ++ "," ++ rs

end Sys2Proof.Machine
end

