-- ==== Sys2Proof/Machine/Launch.lean ====
section
/-! DEFINITION. The abstract interface of the block: its inputs, sampled at reset, reset itself, and its outputs
(spec: 40_control_unit.md R84; 70_reset_and_hazards.md R170, R172). -/

namespace Sys2Proof.Machine

/-- The inputs that a reset samples (R84): the configuration, the loaded program, `R_init` and `MEM_init`. -/
structure Inputs where
  cfg : Config
  prog : List Byte
  initRegs : Vector Byte 4
  initMem : Vector Byte 8
deriving DecidableEq, Repr

/-- The state a reset leaves (R24 to R27, R170). Nothing of the state before it survives. -/
def launchState (inp : Inputs) : State where
  x := inp.initRegs
  mem := Memory.ofBytes 0 inp.initMem.toList
  pc := 0
  running := true
  prog := inp.prog
  cfg := inp.cfg
  trace := []
  draws := 0

/-- Reset, the start of a run (R170). A program longer than `PROG_CAPACITY` is refused (R7), and so is a
capacity that is not positive. -/
def launch (inp : Inputs) : Host.Outcome State Fault Refusal :=
  if inp.cfg.wf && inp.cfg.fits inp.prog then .next (launchState inp) else .refused .launchOutsideModel

/-- The output `prog_addr`: the index of the word the fetch wants (R84). -/
def progAddr (s : State) : Nat := s.pc

/-- The output `state`: what a test or a claim may read (R84). -/
structure Observation where
  regs : Vector Byte 4
  cells : Vector Byte 8
  pc : Nat
  running : Bool
deriving DecidableEq, Repr

/-- The observation of a state (R84). -/
def observe (s : State) : Observation where
  regs := s.x
  cells := Vector.ofFn fun a => memRead a.val s
  pc := s.pc
  running := s.running

end Sys2Proof.Machine
end

