-- ==== Sys2Proof/Safety.lean ====
section
/-! DEFINITION. The terms that claims are stated in: the invariant of a run, a run of several steps and how many of
them are taken, and what one instruction changes and leaves alone. -/

namespace Sys2Proof.Machine

/-- What holds at every point of a run: the memory is in canonical form, the capacity is positive and the program
fits it (R7), `pc` stays in the range of R16, and a halted machine stands at an index inside the program, so that
no state is halted and exhausted at once (R153). -/
abbrev RunInv (s : State) : Prop :=
  Memory.wf s.mem ∧ s.cfg.wf = true ∧ s.cfg.fits s.prog = true ∧
  s.pc ≤ max s.prog.length 7 ∧ (s.running = false → s.pc < s.prog.length)

/-- The continuation condition of R70, as a proposition. -/
abbrev Continues (s : State) : Prop := s.running = true ∧ s.pc < s.prog.length

/-- `n` steps, stopping at a fault or a refusal. After the end of a run the state is held (R79). -/
def runFor : Nat → State → Host.Outcome State Fault Refusal
  | 0, s => .next s
  | n + 1, s =>
    match step s with
    | .next t => runFor n t
    | .fault f => .fault f
    | .refused r => .refused r

/-- How many of the next `n` steps are taken, that is, dispatch an operation (R70, R77). -/
def stepsTaken : Nat → State → Nat
  | 0, _ => 0
  | n + 1, s =>
    if canStep s then
      match step s with
      | .next t => stepsTaken n t + 1
      | .fault _ => 0
      | .refused _ => 0
    else 0

/-- The word a step of `s` fetches is `w`, and it decodes to `i` under the run's opcode table. -/
abbrev Runs (s : State) (i : Instr) : Prop :=
  Continues s ∧ ∃ w, s.prog[s.pc]? = some w ∧ decode s.cfg.optable w = .ok i

/-- The second source register `op2` gives the byte `b`, taking `d` free values (R56): the register itself for
0..3; for 4..7 the next free byte under `draw`, the register `op2 mod 4` under `truncate`, and nothing at all
under `fault`. -/
def SecondSource (s : State) (op2 : Op2) (b : Byte) (d : Nat) : Prop :=
  (op2.toNat < 4 ∧ s.x[op2.toNat]? = some b ∧ d = 0) ∨
  (4 ≤ op2.toNat ∧ s.cfg.src2High = .draw ∧ b = Config.drawByte s.draws ∧ d = 1) ∨
  (4 ≤ op2.toNat ∧ s.cfg.src2High = .truncate ∧ s.x[op2.toNat % 4]? = some b ∧ d = 0)

/-- The four operations that read a second source register (R55). -/
def ReadsSecondSource (op : Operation) : Prop := op = .add ∨ op = .sub ∨ op = .and ∨ op = .or

/-- The parameters of the run are the same, and the trace has exactly the record `r` more (R5, R77, R130). -/
def Emits (s t : State) (r : TraceRecord) : Prop :=
  t.trace = s.trace ++ [r] ∧ t.cfg = s.cfg ∧ t.prog = s.prog

/-- Every data cell, at every address, reads as before. -/
def KeepsMemory (s t : State) : Prop := ∀ a, memRead a t = memRead a s

/-- Every register but `rd` reads as before. -/
def KeepsOtherRegisters (s t : State) (rd : RegIdx) : Prop := ∀ j, j ≠ rd → readReg j t = readReg j s

/-- Every register reads as before. -/
def KeepsRegisters (s t : State) : Prop := ∀ j, readReg j t = readReg j s

/-- `t` is `s` after an operation that only writes register `rd`: the other registers, all of memory and
`running` are unchanged, `pc` is one more, and the record `r` is emitted. -/
def OnlyWrites (s t : State) (rd : RegIdx) (r : TraceRecord) : Prop :=
  KeepsOtherRegisters s t rd ∧ KeepsMemory s t ∧ t.pc = s.pc + 1 ∧ t.running = s.running ∧ Emits s t r

end Sys2Proof.Machine
end

