-- ==== Sys2Proof/Certificates/Slice0/Obligations.lean ====
section
/-! DEFINITION. The statements for the provers. Where a statement names an instruction's word as a number, the weight
of a bit is the spec's own decision (92_eei_decisions.md D1, log entry 11); where it names the text of a trace record,
the order of the fields and the number format are too (D9 to D11, log entry 13). -/

open Sys2Proof Sys2Proof.Machine

/-! ### Encoding -/

/-- A few words, written out bit by bit from R51, R58 and R59, decode to the instructions they stand for. -/
def Obligations.WordsWrittenOutDecode : Prop :=
  decode tableA 0b00000011#8 = .ok (.add 0 3) ∧
  decode tableA 0b00101111#8 = .ok (.mov 1 7) ∧
  decode tableB 0b01011010#8 = .ok (.sub 3 2) ∧
  decode tableB 0b01100111#8 = .ok (.ld 0 7) ∧
  decode tableA 0b10010101#8 = .ok (.st 2 5) ∧
  decode tableB 0b10111010#8 = .ok (.jmp 3 2) ∧
  decode tableA 0b11000011#8 = .ok (.jz 0 3) ∧
  decode tableA 0b11100000#8 = .ok (.hlt 0 0) ∧
  decode tableB 0b11011010#8 = .ok (.and 3 2) ∧
  decode tableB 0b11100001#8 = .ok (.or 0 1)

/-- R51: the three fields of every word by their numbers, and the word from its fields (bit weights: D1). -/
def Obligations.FieldsOfEveryWord : Prop :=
  ∀ w : Byte,
    (fieldOpc w).toNat = w.toNat / 32 ∧ (fieldOp1 w).toNat = w.toNat / 8 % 4 ∧ (fieldOp2 w).toNat = w.toNat % 8 ∧
    w.toNat = 32 * (fieldOpc w).toNat + 8 * (fieldOp1 w).toNat + (fieldOp2 w).toNat

/-- R62: every word is an instruction of Profile A and of Profile B, and under any opcode table, also a narrower one,
a fetched word never stops the machine and never gets lost: a step goes on with one more trace record. The optional
setting `SRC2_HIGH = fault` is the one that makes a source number 4..7 stop (R56), so it is left out here;
`StopsExactlyUnderTheFaultSetting` is about it. -/
def Obligations.EveryWordIsLegal : Prop :=
  (∀ p w, ∃ i, decode (profileTable p) w = .ok i ∧ i.wf (profileTable p) = true) ∧
  ∀ s, Continues s → s.cfg.src2High ≠ .fault → ∃ t r, step s = .next t ∧ t.trace = s.trace ++ [r]

/-- Whatever the opcode table, the word that the encoder gives for an instruction decodes to that instruction, with
every bit of both operand fields, ignored ones included; and the encoder gives a word for every well-formed one. -/
def Obligations.DecodeOfEncodeIsTheInstruction : Prop :=
  ∀ (t : OpTable) (i : Instr), i.wf t = true → ∃ w, encode t i = some w ∧ decode t w = .ok i

/-- Under a table with no operation at two opcodes, such as the two tables of the spec, a word that decodes is the
word its instruction is encoded by. -/
def Obligations.EncodeOfDecodeIsTheWord : Prop :=
  (∀ p, (profileTable p).oneOpcodeEach = true) ∧
  ∀ (t : OpTable) (w : Byte) (i : Instr), t.oneOpcodeEach = true → decode t w = .ok i → encode t i = some w

/-- The encoder refuses exactly the ill-formed instructions, and no word decodes to one of them. -/
def Obligations.IllFormedInstructionsHaveNoWord : Prop :=
  ∀ (t : OpTable) (i : Instr), (i.wf t = false ↔ encode t i = none) ∧ (i.wf t = false → ∀ w, decode t w ≠ .ok i)

/-- R64, R66: the code an assembler writes for a register resolves to that register; under `remapped` exactly R0 and
R1 have one, and R0's is `01`. -/
def Obligations.AssemblerCodesResolve : Prop :=
  (∀ m d c, regCode m d = some c → regmap m c = d) ∧ (∀ d, (regCode .identity d).isSome = true) ∧
  (∀ d, regCode .remapped d = none ↔ ∀ c, regmap .remapped c ≠ d) ∧ regCode .remapped 0 = some 0b01

/-! ### What each instruction does -/

/-- R90: ADD. What `op2` in 4..7 gives (the free byte with its counter `draws`, and the register of `truncate`)
is R56 with the spec's own decision 92_eei_decisions.md D2 and the model's choices in log entries 4 and 5. -/
def Obligations.AddResult : Prop :=
  ∀ (op1 : Op1) (op2 : Op2),
    (∀ p (w : Byte), w.toNat = 0x00 + 8 * op1.toNat + op2.toNat → decode (profileTable p) w = .ok (.add op1 op2)) ∧
    ∀ s b d, SecondSource s op2 b d → ∃ t, exec (.add op1 op2) s = .next t ∧
      (readReg (rdOf op1 s) t).toNat = ((readReg (rdOf op1 s) s).toNat + b.toNat) % 256 ∧
      OnlyWrites s t (rdOf op1 s) (.add (rdOf op1 s) op2 (readReg (rdOf op1 s) t)) ∧ t.draws = s.draws + d ∧
      recordText (.add (rdOf op1 s) op2 (readReg (rdOf op1 s) t)) =
        "R" ++ (rdOf op1 s).val.repr ++ " = R" ++ (rdOf op1 s).val.repr ++ " + R" ++ op2.toNat.repr ++ " = " ++
          (readReg (rdOf op1 s) t).toNat.repr

/-- R91: MOV. -/
def Obligations.MovResult : Prop :=
  ∀ (op1 : Op1) (op2 : Op2),
    (∀ p (w : Byte), w.toNat = 0x20 + 8 * op1.toNat + op2.toNat → decode (profileTable p) w = .ok (.mov op1 op2)) ∧
    ∀ s, ∃ t, exec (.mov op1 op2) s = .next t ∧
      (readReg (rdOf op1 s) t).toNat = op2.toNat ∧
      OnlyWrites s t (rdOf op1 s) (.mov (rdOf op1 s) op2) ∧ t.draws = s.draws ∧
      recordText (.mov (rdOf op1 s) op2) = "R" ++ (rdOf op1 s).val.repr ++ " = " ++ op2.toNat.repr

/-- R92: SUB. What `op2` in 4..7 gives (the free byte with its counter `draws`, and the register of `truncate`)
is R56 with the spec's own decision 92_eei_decisions.md D2 and the model's choices in log entries 4 and 5. -/
def Obligations.SubResult : Prop :=
  ∀ (op1 : Op1) (op2 : Op2),
    (∀ p (w : Byte), w.toNat = 0x40 + 8 * op1.toNat + op2.toNat → decode (profileTable p) w = .ok (.sub op1 op2)) ∧
    ∀ s b d, SecondSource s op2 b d → ∃ t, exec (.sub op1 op2) s = .next t ∧
      ((readReg (rdOf op1 s) t).toNat : Int) = ((readReg (rdOf op1 s) s).toNat - b.toNat : Int) % 256 ∧
      OnlyWrites s t (rdOf op1 s) (.sub (rdOf op1 s) op2 (readReg (rdOf op1 s) t)) ∧ t.draws = s.draws + d ∧
      recordText (.sub (rdOf op1 s) op2 (readReg (rdOf op1 s) t)) =
        "R" ++ (rdOf op1 s).val.repr ++ " = R" ++ (rdOf op1 s).val.repr ++ " - R" ++ op2.toNat.repr ++ " = " ++
          (readReg (rdOf op1 s) t).toNat.repr

/-- R100, R102: LD, from the address `op2`. -/
def Obligations.LdResult : Prop :=
  ∀ (op1 : Op1) (op2 : Op2),
    (∀ p (w : Byte), w.toNat = 0x60 + 8 * op1.toNat + op2.toNat → decode (profileTable p) w = .ok (.ld op1 op2)) ∧
    ∀ s, ∃ t, exec (.ld op1 op2) s = .next t ∧
      readReg (rdOf op1 s) t = memRead op2.toNat s ∧
      OnlyWrites s t (rdOf op1 s) (.ld (rdOf op1 s) op2 (memRead op2.toNat s)) ∧ t.draws = s.draws ∧
      recordText (.ld (rdOf op1 s) op2 (memRead op2.toNat s)) =
        "R" ++ (rdOf op1 s).val.repr ++ " = MEM[" ++ op2.toNat.repr ++ "] = " ++ (memRead op2.toNat s).toNat.repr

/-- R101, R102: ST. The address stored to is computed by the function the meaning uses, `effAddr`, and it is `op2`;
every byte outside the one stored reads as before. -/
def Obligations.StResult : Prop :=
  ∀ (op1 : Op1) (op2 : Op2),
    (∀ p (w : Byte), w.toNat = 0x80 + 8 * op1.toNat + op2.toNat → decode (profileTable p) w = .ok (.st op1 op2)) ∧
    effAddr op2 = op2.toNat ∧
    ∀ s, ∃ t, exec (.st op1 op2) s = .next t ∧
      (∀ a, effAddr op2 = a →
        memRead a t = readReg (rdOf op1 s) s ∧ ∀ b, b ≠ a → memRead b t = memRead b s) ∧
      KeepsRegisters s t ∧ t.pc = s.pc + 1 ∧ t.running = s.running ∧
      Emits s t (.st op2 (rdOf op1 s) (readReg (rdOf op1 s) s)) ∧ t.draws = s.draws ∧
      recordText (.st op2 (rdOf op1 s) (readReg (rdOf op1 s) s)) =
        "MEM[" ++ op2.toNat.repr ++ "] = R" ++ (rdOf op1 s).val.repr ++ " = " ++
          (readReg (rdOf op1 s) s).toNat.repr

/-- R110: JMP. -/
def Obligations.JmpResult : Prop :=
  ∀ (op1 : Op1) (op2 : Op2),
    (∀ p (w : Byte), w.toNat = 0xA0 + 8 * op1.toNat + op2.toNat → decode (profileTable p) w = .ok (.jmp op1 op2)) ∧
    ∀ s, ∃ t, exec (.jmp op1 op2) s = .next t ∧ t.pc = op2.toNat ∧
      KeepsRegisters s t ∧ KeepsMemory s t ∧ t.running = s.running ∧ Emits s t (.jmp op2) ∧ t.draws = s.draws ∧
      recordText (.jmp op2) = "JMP to " ++ op2.toNat.repr

/-- R111: JZ, an instruction of Profile A. -/
def Obligations.JzResult : Prop :=
  ∀ (op1 : Op1) (op2 : Op2),
    (∀ w : Byte, w.toNat = 0xC0 + 8 * op1.toNat + op2.toNat → decode (profileTable .A) w = .ok (.jz op1 op2)) ∧
    (∀ w : Byte, decode (profileTable .B) w ≠ .ok (.jz op1 op2)) ∧
    ∀ s, ∃ t, exec (.jz op1 op2) s = .next t ∧
      ((readReg (rdOf op1 s) s).toNat = 0 → t.pc = op2.toNat ∧ Emits s t (.jzTaken (rdOf op1 s) op2)) ∧
      ((readReg (rdOf op1 s) s).toNat ≠ 0 → t.pc = s.pc + 1 ∧ Emits s t (.jzNotTaken (rdOf op1 s))) ∧
      KeepsRegisters s t ∧ KeepsMemory s t ∧ t.running = s.running ∧ t.draws = s.draws ∧
      recordText (.jzTaken (rdOf op1 s) op2) =
        "JZ: R" ++ (rdOf op1 s).val.repr ++ " == 0, jump to " ++ op2.toNat.repr ∧
      recordText (.jzNotTaken (rdOf op1 s)) = "JZ: R" ++ (rdOf op1 s).val.repr ++ " != 0, no jump"

/-- R112: HLT, an instruction of Profile A. That `pc` keeps the index of the HLT is the spec's own decision
(92_eei_decisions.md D6, log entry 8); the other clauses do not rest on it. -/
def Obligations.HltResult : Prop :=
  ∀ (op1 : Op1) (op2 : Op2),
    (∀ w : Byte, w.toNat = 0xE0 + 8 * op1.toNat + op2.toNat → decode (profileTable .A) w = .ok (.hlt op1 op2)) ∧
    (∀ w : Byte, decode (profileTable .B) w ≠ .ok (.hlt op1 op2)) ∧
    ∀ s, ∃ t, exec (.hlt op1 op2) s = .next t ∧ t.running = false ∧ t.pc = s.pc ∧
      KeepsRegisters s t ∧ KeepsMemory s t ∧ Emits s t .hlt ∧ t.draws = s.draws ∧ recordText .hlt = "HLT: Halting"

/-- R120: AND, an instruction of Profile B. What `op2` in 4..7 gives (the free byte with its counter `draws`, and the register of `truncate`)
is R56 with the spec's own decision 92_eei_decisions.md D2 and the model's choices in log entries 4 and 5. -/
def Obligations.AndResult : Prop :=
  ∀ (op1 : Op1) (op2 : Op2),
    (∀ w : Byte, w.toNat = 0xC0 + 8 * op1.toNat + op2.toNat → decode (profileTable .B) w = .ok (.and op1 op2)) ∧
    (∀ w : Byte, decode (profileTable .A) w ≠ .ok (.and op1 op2)) ∧
    ∀ s b d, SecondSource s op2 b d → ∃ t, exec (.and op1 op2) s = .next t ∧
      (∀ n, n < 8 → (readReg (rdOf op1 s) t).getLsbD n = ((readReg (rdOf op1 s) s).getLsbD n && b.getLsbD n)) ∧
      OnlyWrites s t (rdOf op1 s) (.and (rdOf op1 s) op2 (readReg (rdOf op1 s) t)) ∧ t.draws = s.draws + d ∧
      recordText (.and (rdOf op1 s) op2 (readReg (rdOf op1 s) t)) =
        "R" ++ (rdOf op1 s).val.repr ++ " = R" ++ (rdOf op1 s).val.repr ++ " & R" ++ op2.toNat.repr ++ " = " ++
          (readReg (rdOf op1 s) t).toNat.repr

/-- R121: OR, an instruction of Profile B. What `op2` in 4..7 gives (the free byte with its counter `draws`, and the register of `truncate`)
is R56 with the spec's own decision 92_eei_decisions.md D2 and the model's choices in log entries 4 and 5. -/
def Obligations.OrResult : Prop :=
  ∀ (op1 : Op1) (op2 : Op2),
    (∀ w : Byte, w.toNat = 0xE0 + 8 * op1.toNat + op2.toNat → decode (profileTable .B) w = .ok (.or op1 op2)) ∧
    (∀ w : Byte, decode (profileTable .A) w ≠ .ok (.or op1 op2)) ∧
    ∀ s b d, SecondSource s op2 b d → ∃ t, exec (.or op1 op2) s = .next t ∧
      (∀ n, n < 8 → (readReg (rdOf op1 s) t).getLsbD n = ((readReg (rdOf op1 s) s).getLsbD n || b.getLsbD n)) ∧
      OnlyWrites s t (rdOf op1 s) (.or (rdOf op1 s) op2 (readReg (rdOf op1 s) t)) ∧ t.draws = s.draws + d ∧
      recordText (.or (rdOf op1 s) op2 (readReg (rdOf op1 s) t)) =
        "R" ++ (rdOf op1 s).val.repr ++ " = R" ++ (rdOf op1 s).val.repr ++ " | R" ++ op2.toNat.repr ++ " = " ++
          (readReg (rdOf op1 s) t).toNat.repr

/-- Corner cases of R90, R92, R120, R121 and the idioms of R65: with one register as both sources ADD doubles it modulo
256, SUB clears it, and AND and OR change no register and no cell. -/
def Obligations.OneRegisterAsBothSources : Prop :=
  ∀ (op1 : Op1) (op2 : Op2) s, op2.toNat = (rdOf op1 s).val →
    (∃ t, exec (.add op1 op2) s = .next t ∧
      (readReg (rdOf op1 s) t).toNat = 2 * (readReg (rdOf op1 s) s).toNat % 256) ∧
    (∃ t, exec (.sub op1 op2) s = .next t ∧ readReg (rdOf op1 s) t = 0) ∧
    (∃ t, exec (.and op1 op2) s = .next t ∧ KeepsRegisters s t ∧ KeepsMemory s t) ∧
    ∃ t, exec (.or op1 op2) s = .next t ∧ KeepsRegisters s t ∧ KeepsMemory s t

/-- R80: a word whose opcode the table leaves unassigned. With the two tables of the spec there is none. -/
def Obligations.UnassignedOpcodeLogsAndAdvances : Prop :=
  (∀ p opc, (profileTable p).lookup opc ≠ none) ∧
  ∀ s w, Continues s → s.prog[s.pc]? = some w → s.cfg.optable.lookup (fieldOpc w) = none →
    ∃ t, step s = .next t ∧ t.pc = s.pc + 1 ∧ KeepsRegisters s t ∧ KeepsMemory s t ∧ t.running = s.running ∧
      Emits s t (.unknown (fieldOpc w)) ∧ t.draws = s.draws ∧
      recordText (.unknown (fieldOpc w)) = "Unknown opcode: " ++ (fieldOpc w).toNat.repr

/-- R56, R150, R151: an instruction stops the machine exactly when it is ADD, SUB, AND or OR, names a source register
4..7, and the optional setting `SRC2_HIGH = fault` is in force; it then stops with that one fault. -/
def Obligations.StopsExactlyUnderTheFaultSetting : Prop :=
  ∀ i s f, exec i s = .fault f ↔
    ReadsSecondSource i.operation ∧ 4 ≤ i.op2.toNat ∧ s.cfg.src2High = .fault ∧ f = .src2IndexOutOfRange i.op2

/-- R150: in every other case an instruction runs to a next state, and no instruction is ever refused. -/
def Obligations.EveryOtherInstructionCompletes : Prop :=
  ∀ i s, (∀ r, exec i s ≠ .refused r) ∧
    ((ReadsSecondSource i.operation → 4 ≤ i.op2.toNat → s.cfg.src2High ≠ .fault) → ∃ t, exec i s = .next t)

/-- R56: the read of the second source that the meanings make, `src2`, answers a byte exactly where `SecondSource` gives
it, and changes nothing but the count of free values taken; ADD, SUB, AND and OR complete exactly where there is such a
byte. A register number 0..3 is that register, unmapped, under every setting; 4..7 gives exactly one byte under `draw`
and under `truncate`, and none under `fault`. What 4..7 gives is the spec's own decision (92_eei_decisions.md D2) and the
model's choice of form (the free value and its counter, log entry 4; the three settings, log entry 5). -/
def Obligations.SecondSourceIsReadAsTheSettingSays : Prop :=
  ∀ s (op2 : Op2),
    (∀ b s', src2 op2 s = .ok (b, s') ↔
      ∃ d, SecondSource s op2 b d ∧ s' = { s with draws := s.draws + d }) ∧
    (∀ i : Instr, ReadsSecondSource i.operation → i.op2 = op2 →
      ((∃ t, exec i s = .next t) ↔ ∃ b d, SecondSource s op2 b d)) ∧
    (∀ h : op2.toNat < 4, ∀ b d, SecondSource s op2 b d ↔ b = s.x[op2.toNat] ∧ d = 0) ∧
    (4 ≤ op2.toNat → ((∃ b d, SecondSource s op2 b d) ↔ s.cfg.src2High ≠ .fault)) ∧
    (∀ b c d e, SecondSource s op2 b d → SecondSource s op2 c e → b = c ∧ d = e)

/-- R56: the free values reach an instruction only through a source register 4..7 under `draw`: every other
instruction does the same whatever free values are still to come. -/
def Obligations.FreeValuesReachOnlyHighSources : Prop :=
  ∀ i s n, (ReadsSecondSource i.operation → 4 ≤ i.op2.toNat → s.cfg.src2High ≠ .draw) →
    ∀ t, exec i s = .next t → t.draws = s.draws ∧ exec i { s with draws := n } = .next { t with draws := n }

/-! ### The register-mapping policy -/

/-- R53: under the identity policy the raw field is the register's number, one to one. -/
def Obligations.IdentityPolicyIsTheRawField : Prop :=
  Function.Bijective (regmap .identity) ∧ ∀ r : Op1, (regmap .identity r).val = r.toNat

/-- R54: under the remapped policy `01`, `00` and `10` all resolve to R0 and `11` to R1, so R2 and R3 are reached by
no code; and the fallback is no error: an instruction with the code `00` or `10` does all that the one with the code
`01` does. -/
def Obligations.RemappedCodesFallBack : Prop :=
  regmap .remapped 0b00 = 0 ∧ regmap .remapped 0b01 = 0 ∧ regmap .remapped 0b10 = 0 ∧ regmap .remapped 0b11 = 1 ∧
  ∀ op b s, s.cfg.regmap = .remapped →
    exec (buildInstr op 0b00 b) s = exec (buildInstr op 0b01 b) s ∧
    exec (buildInstr op 0b10 b) s = exec (buildInstr op 0b01 b) s

/-- R14, R172: under the remapped policy R2 and R3 keep their values for the whole run. -/
def Obligations.RemappedRunKeepsUpperRegisters : Prop :=
  ∀ n s t, s.cfg.regmap = .remapped → runFor n s = .next t → readReg 2 t = readReg 2 s ∧ readReg 3 t = readReg 3 s

/-- R61: two words that differ only in fields their operation ignores do the same: operand1 of JMP, both fields of HLT
and of a word dispatched to UNKNOWN. The steps' results differ in the word that stands in the program alone. -/
def Obligations.IgnoredFieldsChangeNothing : Prop :=
  ∀ s (v w : Byte) t, Continues s → fieldOpc v = fieldOpc w →
    (s.cfg.optable.lookup (fieldOpc v) = some .jmp ∧ fieldOp2 v = fieldOp2 w ∨
      s.cfg.optable.lookup (fieldOpc v) = some .hlt ∨ s.cfg.optable.lookup (fieldOpc v) = none) →
    step { s with prog := s.prog.set s.pc v } = .next t →
    step { s with prog := s.prog.set s.pc w } = .next { t with prog := s.prog.set s.pc w }

/-! ### The step and the run -/

/-- R70 to R73: when the continuation condition holds and the word at `pc` decodes to an instruction, the step is what
that instruction does. `exec` itself moves `pc`; the step adds nothing around it. -/
def Obligations.StepRunsTheDecodedInstruction : Prop :=
  ∀ s w i, s.running = true → s.pc < s.prog.length → s.prog[s.pc]? = some w → decode s.cfg.optable w = .ok i →
    step s = exec i s

/-- R70: a step is taken if and only if `running` is true and `pc < len`. That no step is taken shows as the state
being held (R79, 92_eei_decisions.md D14, log entry 9); a step that is taken never leaves the state as it was. -/
def Obligations.StepIsTakenExactlyWhileTheRunContinues : Prop :=
  ∀ s, step s = .next s ↔ ¬ Continues s

/-- R79: after the end of a run nothing changes any more (held state: 92_eei_decisions.md D14, log entry 9). -/
def Obligations.EndedRunIsHeldForGood : Prop :=
  ∀ n s, ¬ Continues s → Host.Core.run core n s = .next s

/-- R82: an empty program. -/
def Obligations.EmptyProgramDoesNothing : Prop :=
  ∀ inp, inp.prog = [] → inp.cfg.wf = true → ∃ s, launch inp = .next s ∧ s.trace = [] ∧ phase s = .exhausted ∧
    ∀ n, runFor n s = .next s ∧ stepsTaken n s = 0

/-- R77: exactly one record for each step taken, none at reset and none where no step is taken, so a run has as many
records as steps. -/
def Obligations.OneRecordPerStep : Prop :=
  (∀ inp s, launch inp = .next s → s.trace = []) ∧
  (∀ s t, step s = .next t → (Continues s → ∃ r, t.trace = s.trace ++ [r]) ∧ (¬ Continues s → t.trace = s.trace)) ∧
  ∀ n s t, runFor n s = .next t → ∃ rs, t.trace = s.trace ++ rs ∧ rs.length = stepsTaken n s

/-- R12: registers are written only by ADD, SUB, MOV, LD, AND and OR, and only the register that operand1 resolves to;
nothing else that a step does writes one. -/
def Obligations.RegistersAreWrittenOnlyThroughOperand1 : Prop :=
  ∀ s t j, step s = .next t → readReg j t ≠ readReg j s →
    ∃ i, Runs s i ∧ i.operation ∈ [Operation.add, .sub, .mov, .ld, .and, .or] ∧ j = regmap s.cfg.regmap i.op1

/-- R20, R30: a data cell changes only when ST runs, and only the cell that its `op2` names. -/
def Obligations.MemoryIsWrittenOnlyBySt : Prop :=
  ∀ s t a, step s = .next t → memRead a t ≠ memRead a s →
    ∃ i, Runs s i ∧ i.operation = .st ∧ a = i.op2.toNat ∧ a < 8

/-- R17, R27: `running` is true after reset; HLT clears it, nothing else does, and nothing sets it back; no instruction reads
it as data; and under Profile B it stays true for the whole run. -/
def Obligations.RunningIsClearedOnlyByHlt : Prop :=
  State.reset.running = true ∧ (∀ inp s, launch inp = .next s → s.running = true) ∧
  (∀ s t, step s = .next t → (t.running = false ↔ s.running = false ∨ ∃ i, Runs s i ∧ i.operation = .hlt)) ∧
  (∀ i s t b, exec i s = .next t →
    ∃ u, exec i { s with running := b } = .next u ∧ { u with running := true } = { t with running := true }) ∧
  ∀ n s t, s.cfg.optable = tableB → s.running = true → runFor n s = .next t → t.running = true

/-- R5, R40: the configuration is sampled at reset and the program loaded before it, and nothing in a run, no store
either, changes them: a fetch at the same index gives the same word for the whole run. -/
def Obligations.ProgramAndConfigurationAreFixed : Prop :=
  (∀ inp s, launch inp = .next s → s.cfg = inp.cfg ∧ s.prog = inp.prog) ∧
  ∀ n s t, runFor n s = .next t → t.cfg = s.cfg ∧ t.prog = s.prog

/-- R113 (a): no jump lands above index 7, so an index above 7 is reached only from the one before it. -/
def Obligations.HighIndicesAreReachedBySequenceOnly : Prop :=
  ∀ s t, step s = .next t → 7 < t.pc → t.pc = s.pc ∨ t.pc = s.pc + 1

/-- R83: the phases are told apart by `running`, `pc` and `len`; HALTED and EXHAUSTED are left by no step; RUN goes to
HALTED by HLT and by nothing else, and to EXHAUSTED when another operation leaves `pc >= len`
(the names of the phases: 92_eei_decisions.md D22). -/
def Obligations.PhasesMoveAsTheControlUnitSays : Prop :=
  (∀ s, (phase s = .run ↔ Continues s) ∧ (phase s = .halted ↔ s.running = false) ∧
    (phase s = .exhausted ↔ s.running = true ∧ s.prog.length ≤ s.pc)) ∧
  ∀ s t, step s = .next t →
    (phase s ≠ .run → phase t = phase s) ∧
    (phase s = .run → (phase t = .halted ↔ ∃ i, Runs s i ∧ i.operation = .hlt)) ∧
    (phase s = .run → (phase t = .exhausted ↔ (¬ ∃ i, Runs s i ∧ i.operation = .hlt) ∧ t.prog.length ≤ t.pc))

/-- R81: a JMP, or a JZ that is taken, whose target is its own index runs for ever: after any number of steps only the
trace has grown, and a further step is still to be taken. -/
def Obligations.SelfJumpRunsForever : Prop :=
  ∀ s i r, Runs s i → i.op2.toNat = s.pc →
    (i.operation = .jmp ∧ r = .jmp i.op2 ∨
      i.operation = .jz ∧ readReg (rdOf i.op1 s) s = 0 ∧ r = .jzTaken (rdOf i.op1 s) i.op2) →
    ∀ n, runFor n s = .next { s with trace := s.trace ++ List.replicate n r } ∧ stepsTaken n s = n

/-! ### Reset -/

/-- R24, R25, R26, R170: what a reset leaves, in terms of its inputs. That `pc` is 0 and that `R_init` and `MEM_init` are
parameters is the spec's own decision (92_eei_decisions.md D4, D5, D21, log entries 2, 3 and 19). -/
def Obligations.ResetLeavesItsInputs : Prop :=
  ∀ inp, inp.cfg.wf = true → inp.prog.length ≤ inp.cfg.progCapacity → ∃ s, launch inp = .next s ∧
    observe s = { regs := inp.initRegs, cells := inp.initMem, pc := 0, running := true } ∧
    (∀ i, readReg i s = inp.initRegs[i]) ∧ (∀ a : Fin 8, memRead a.val s = inp.initMem[a]) ∧
    s.cfg = inp.cfg ∧ s.prog = inp.prog ∧ s.trace = [] ∧ progAddr s = 0 ∧
    (phase s = .run ↔ 0 < inp.prog.length)

/-- R7: a launch is refused exactly when the program is longer than the capacity or the capacity is not positive
(92_eei_decisions.md D12, log entry 12); it never faults. -/
def Obligations.LaunchIsRefusedExactlyWhenTheProgramDoesNotFit : Prop :=
  ∀ inp, (∀ f, launch inp ≠ .fault f) ∧
    ((∃ r, launch inp = .refused r) ↔ inp.cfg.progCapacity = 0 ∨ inp.cfg.progCapacity < inp.prog.length)

/-! ### Invariants -/

/-- The invariant holds after every reset, `State.reset` among them. -/
def Obligations.InvariantHoldsAtReset : Prop :=
  RunInv State.reset ∧ ∀ inp s, launch inp = .next s → RunInv s

/-- R16, R153, R7 and the canonical form of memory: every step from a state that meets the invariant, reached by a run
or not, gives one that meets it. That a halted machine stands inside the program rests on `pc` keeping the index of a
HLT (92_eei_decisions.md D6, log entry 8). -/
def Obligations.EveryStepKeepsTheInvariant : Prop :=
  ∀ s t, RunInv s → step s = .next t → RunInv t

/-- R15, R16: `pc` needs no more bits than `PC_WIDTH`, the least width that holds every value up to the capacity and
every jump target; it is 9 bits for the capacity 256 (92_eei_decisions.md D3, log entry 7). -/
def Obligations.PcFitsItsWidth : Prop :=
  (∀ s, RunInv s → s.pc < 2 ^ s.cfg.pcWidth) ∧
  (∀ (c : Config) w, max c.progCapacity 7 < 2 ^ w ↔ c.pcWidth ≤ w) ∧
  ∀ c : Config, c.progCapacity = 256 → c.pcWidth = 9

/-- In canonical form (log entry 3) equal contents are equal data: two memories whose eight cells read alike are the
same list. -/
def Obligations.CanonicalMemoriesThatReadAlikeAreEqual : Prop :=
  ∀ m n : Memory, Memory.wf m → Memory.wf n → (∀ a, a < 8 → Memory.read m a = Memory.read n a) → m = n

/-! ### Data memory -/

/-- R31: a cell reads as the latest write to it, and as `MEM_init` before any; a write changes no other cell. -/
def Obligations.CellReadsAsItsLatestWrite : Prop :=
  (∀ a v s, a < 8 → memRead a (memWrite a v s) = v ∧ ∀ b, b ≠ a → memRead b (memWrite a v s) = memRead b s) ∧
  ∀ inp s, launch inp = .next s → ∀ a : Fin 8, memRead a.val s = inp.initMem[a]

/-- R38, R176: a LD that follows a ST to the same cell loads the value stored, whatever the two registers are. -/
def Obligations.LoadAfterStoreSeesTheStore : Prop :=
  ∀ p q op2 s t u, exec (.st p op2) s = .next t → exec (.ld q op2) t = .next u →
    readReg (rdOf q s) u = readReg (rdOf p s) s

/-! ### The trace -/

/-- R130, R137: the trace never influences execution. Two runs from states that differ only in the trace take the same
steps, append the same records and end alike. -/
def Obligations.TraceNeverInfluencesExecution : Prop :=
  ∀ n s t tr, runFor n s = .next t →
    ∃ rs, t.trace = s.trace ++ rs ∧ runFor n { s with trace := tr } = .next { t with trace := tr ++ rs }

/-- R135: the numeral of every number from 0 to 255 has only decimal digits and no leading zero, and its value is the
number (number format: 92_eei_decisions.md D9, log entry 13). -/
def Obligations.NumeralsAreDecimalWithoutPadding : Prop :=
  ∀ b : Byte, (∀ c ∈ (decimal b.toNat).toList, c.isDigit = true) ∧
    (decimal b.toNat).toList.foldl (fun v c => 10 * v + (c.toNat - '0'.toNat)) 0 = b.toNat ∧
    ((decimal b.toNat).toList.head? = some '0' → b = 0)

/-- R136: the text and the records carry the same information: the text of a whole trace determines every record of it,
kind and fields (the text's form: 92_eei_decisions.md D9 to D11, log entry 13). -/
def Obligations.TraceTextDeterminesTheTrace : Prop :=
  ∀ tr ur, traceText tr = traceText ur → tr = ur
end

