-- ==== Sys2Proof/Laws/State.lean ====
section
/-! SUPPORT. One lemma per field per update of the state, each true by unfolding the update once, so that no later
proof unfolds a record update. -/

namespace Sys2Proof.Machine

variable (s : State)

/-! ### `writeReg` -/

@[simp] theorem writeReg_x (i : RegIdx) (v : Byte) : (writeReg i v s).x = s.x.set i v := rfl
@[simp] theorem writeReg_mem (i : RegIdx) (v : Byte) : (writeReg i v s).mem = s.mem := rfl
@[simp] theorem writeReg_pc (i : RegIdx) (v : Byte) : (writeReg i v s).pc = s.pc := rfl
@[simp] theorem writeReg_running (i : RegIdx) (v : Byte) : (writeReg i v s).running = s.running := rfl
@[simp] theorem writeReg_prog (i : RegIdx) (v : Byte) : (writeReg i v s).prog = s.prog := rfl
@[simp] theorem writeReg_cfg (i : RegIdx) (v : Byte) : (writeReg i v s).cfg = s.cfg := rfl
@[simp] theorem writeReg_trace (i : RegIdx) (v : Byte) : (writeReg i v s).trace = s.trace := rfl
@[simp] theorem writeReg_draws (i : RegIdx) (v : Byte) : (writeReg i v s).draws = s.draws := rfl

/-! ### `memWrite` -/

@[simp] theorem memWrite_x (a : Nat) (v : Byte) : (memWrite a v s).x = s.x := rfl
@[simp] theorem memWrite_mem (a : Nat) (v : Byte) : (memWrite a v s).mem = Memory.write s.mem a v := rfl
@[simp] theorem memWrite_pc (a : Nat) (v : Byte) : (memWrite a v s).pc = s.pc := rfl
@[simp] theorem memWrite_running (a : Nat) (v : Byte) : (memWrite a v s).running = s.running := rfl
@[simp] theorem memWrite_prog (a : Nat) (v : Byte) : (memWrite a v s).prog = s.prog := rfl
@[simp] theorem memWrite_cfg (a : Nat) (v : Byte) : (memWrite a v s).cfg = s.cfg := rfl
@[simp] theorem memWrite_trace (a : Nat) (v : Byte) : (memWrite a v s).trace = s.trace := rfl
@[simp] theorem memWrite_draws (a : Nat) (v : Byte) : (memWrite a v s).draws = s.draws := rfl

/-! ### `emit` -/

@[simp] theorem emit_x (r : TraceRecord) : (emit r s).x = s.x := rfl
@[simp] theorem emit_mem (r : TraceRecord) : (emit r s).mem = s.mem := rfl
@[simp] theorem emit_pc (r : TraceRecord) : (emit r s).pc = s.pc := rfl
@[simp] theorem emit_running (r : TraceRecord) : (emit r s).running = s.running := rfl
@[simp] theorem emit_prog (r : TraceRecord) : (emit r s).prog = s.prog := rfl
@[simp] theorem emit_cfg (r : TraceRecord) : (emit r s).cfg = s.cfg := rfl
@[simp] theorem emit_trace (r : TraceRecord) : (emit r s).trace = s.trace ++ [r] := rfl
@[simp] theorem emit_draws (r : TraceRecord) : (emit r s).draws = s.draws := rfl

/-! ### `draw8` -/

@[simp] theorem draw8_x : ((draw8 s).2).x = s.x := rfl
@[simp] theorem draw8_mem : ((draw8 s).2).mem = s.mem := rfl
@[simp] theorem draw8_pc : ((draw8 s).2).pc = s.pc := rfl
@[simp] theorem draw8_running : ((draw8 s).2).running = s.running := rfl
@[simp] theorem draw8_prog : ((draw8 s).2).prog = s.prog := rfl
@[simp] theorem draw8_cfg : ((draw8 s).2).cfg = s.cfg := rfl
@[simp] theorem draw8_trace : ((draw8 s).2).trace = s.trace := rfl
@[simp] theorem draw8_draws : ((draw8 s).2).draws = s.draws + 1 := rfl

@[simp] theorem draw8_value : (draw8 s).1 = Config.drawByte s.draws := rfl

/-! ### `applyPc` and `retire` -/

@[simp] theorem applyPc_x (p : PcPolicy) : (applyPc p s).x = s.x := by cases p <;> rfl
@[simp] theorem applyPc_mem (p : PcPolicy) : (applyPc p s).mem = s.mem := by cases p <;> rfl
@[simp] theorem applyPc_increment_pc : (applyPc .increment s).pc = s.pc + 1 := rfl
@[simp] theorem applyPc_jumpTo_pc (t : Nat) : (applyPc (.jumpTo t) s).pc = t := rfl
@[simp] theorem applyPc_halt_pc : (applyPc .halt s).pc = s.pc := rfl
@[simp] theorem applyPc_running (p : PcPolicy) : (applyPc p s).running = s.running := by cases p <;> rfl
@[simp] theorem applyPc_prog (p : PcPolicy) : (applyPc p s).prog = s.prog := by cases p <;> rfl
@[simp] theorem applyPc_cfg (p : PcPolicy) : (applyPc p s).cfg = s.cfg := by cases p <;> rfl
@[simp] theorem applyPc_trace (p : PcPolicy) : (applyPc p s).trace = s.trace := by cases p <;> rfl
@[simp] theorem applyPc_draws (p : PcPolicy) : (applyPc p s).draws = s.draws := by cases p <;> rfl

@[simp] theorem retire_x (r : TraceRecord) (p : PcPolicy) : (retire r p s).x = s.x := by simp [retire]
@[simp] theorem retire_mem (r : TraceRecord) (p : PcPolicy) : (retire r p s).mem = s.mem := by simp [retire]
@[simp] theorem retire_increment_pc (r : TraceRecord) : (retire r .increment s).pc = s.pc + 1 := rfl
@[simp] theorem retire_jumpTo_pc (r : TraceRecord) (t : Nat) : (retire r (.jumpTo t) s).pc = t := rfl
@[simp] theorem retire_halt_pc (r : TraceRecord) : (retire r .halt s).pc = s.pc := rfl
@[simp] theorem retire_running (r : TraceRecord) (p : PcPolicy) : (retire r p s).running = s.running := by simp [retire]
@[simp] theorem retire_prog (r : TraceRecord) (p : PcPolicy) : (retire r p s).prog = s.prog := by simp [retire]
@[simp] theorem retire_cfg (r : TraceRecord) (p : PcPolicy) : (retire r p s).cfg = s.cfg := by simp [retire]
@[simp] theorem retire_trace (r : TraceRecord) (p : PcPolicy) : (retire r p s).trace = s.trace ++ [r] := by
  simp [retire]
@[simp] theorem retire_draws (r : TraceRecord) (p : PcPolicy) : (retire r p s).draws = s.draws := by simp [retire]

/-! ### Reading what an update left -/

@[simp] theorem readReg_writeReg_same (i : RegIdx) (v : Byte) : readReg i (writeReg i v s) = v := by
  simp [readReg, writeReg]

theorem readReg_writeReg_of_ne (i j : RegIdx) (v : Byte) (h : j ≠ i) :
    readReg j (writeReg i v s) = readReg j s := by
  have : i.val ≠ j.val := fun e => h (Fin.ext e.symm)
  simp [readReg, writeReg, this]

@[simp] theorem readReg_retire (j : RegIdx) (r : TraceRecord) (p : PcPolicy) :
    readReg j (retire r p s) = readReg j s := by simp [readReg]

@[simp] theorem readReg_memWrite (j : RegIdx) (a : Nat) (v : Byte) :
    readReg j (memWrite a v s) = readReg j s := rfl

@[simp] theorem readReg_draw8 (j : RegIdx) : readReg j (draw8 s).2 = readReg j s := rfl

@[simp] theorem memRead_writeReg (a : Nat) (i : RegIdx) (v : Byte) :
    memRead a (writeReg i v s) = memRead a s := rfl

@[simp] theorem memRead_retire (a : Nat) (r : TraceRecord) (p : PcPolicy) :
    memRead a (retire r p s) = memRead a s := by simp [memRead]

@[simp] theorem memRead_draw8 (a : Nat) : memRead a (draw8 s).2 = memRead a s := rfl

end Sys2Proof.Machine
end

