-- ==== Sys2Proof/Laws/Memory.lean ====
section
/-! SUPPORT. The laws of data memory: a read after a write, and that every operation keeps the canonical form. -/

namespace Sys2Proof.Machine

theorem Memory.read_erase (m : Memory) (a b : Nat) :
    Memory.read (Memory.erase m a) b = if b = a then Memory.unlisted else Memory.read m b := by
  induction m with
  | nil => simp [Memory.erase, Memory.read]
  | cons c m ih =>
    obtain ⟨k, u⟩ := c
    unfold Memory.erase at ih ⊢
    by_cases hk : k = a
    · subst hk
      by_cases hb : b = k <;> simp_all [Memory.read]
    · by_cases hb : b = k
      · subst hb
        simp_all [Memory.read]
      · simp_all [Memory.read]

theorem Memory.read_insert (m : Memory) (a b : Nat) (v : Byte) (h : ∀ c ∈ m, c.1 ≠ a) :
    Memory.read (Memory.insert m a v) b = if b = a then v else Memory.read m b := by
  induction m with
  | nil => simp [Memory.insert, Memory.read]
  | cons c m ih =>
    obtain ⟨k, u⟩ := c
    have hk : k ≠ a := h (k, u) (by simp)
    have hm : ∀ c ∈ m, c.1 ≠ a := fun c hc => h c (by simp [hc])
    rw [Memory.insert]
    split
    · rfl
    · simp only [Memory.read, ih hm]
      by_cases hb : b = k
      · subst hb; simp [hk]
      · simp [hb]

theorem Memory.ne_of_mem_erase {m : Memory} {a : Nat} {c : Host.Cell} (h : c ∈ Memory.erase m a) : c.1 ≠ a := by
  simpa [Memory.erase] using (List.mem_filter.mp h).2

/-- A read after a write: the value at the cell written, and every other cell as before (R31). -/
theorem Memory.read_write (m : Memory) (a b : Nat) (v : Byte) :
    Memory.read (Memory.write m a v) b = if b = a then v else Memory.read m b := by
  unfold Memory.write
  split
  · next h => rw [Memory.read_erase]; split <;> simp_all
  · rw [Memory.read_insert _ _ _ _ fun c hc => Memory.ne_of_mem_erase hc, Memory.read_erase]
    split <;> rfl

@[simp] theorem memRead_memWrite_same (s : State) (a : Nat) (v : Byte) : memRead a (memWrite a v s) = v := by
  simp [memRead, Memory.read_write]

theorem memRead_memWrite_of_ne (s : State) (a b : Nat) (v : Byte) (h : b ≠ a) :
    memRead b (memWrite a v s) = memRead b s := by
  simp [memRead, Memory.read_write, h]

theorem Memory.wf_nil : Memory.wf [] := ⟨.nil, by simp⟩

theorem Memory.wf_erase {m : Memory} (h : Memory.wf m) (a : Nat) : Memory.wf (Memory.erase m a) :=
  ⟨h.1.sublist List.filter_sublist, fun c hc => h.2 c (List.mem_of_mem_filter hc)⟩

theorem Memory.mem_insert {m : Memory} {a : Nat} {v : Byte} {c : Host.Cell}
    (h : c ∈ Memory.insert m a v) : c = (a, v) ∨ c ∈ m := by
  induction m with
  | nil => simpa [Memory.insert] using h
  | cons d m ih =>
    obtain ⟨k, u⟩ := d
    rw [Memory.insert] at h
    split at h
    · simpa using h
    · rcases List.mem_cons.mp h with h | h
      · simp [h]
      · rcases ih h with h | h <;> simp [h]

theorem Memory.pairwise_insert {m : Memory} {a : Nat} {v : Byte} (h : m.Pairwise (fun c d => c.1 < d.1))
    (hne : ∀ c ∈ m, c.1 ≠ a) : (Memory.insert m a v).Pairwise (fun c d => c.1 < d.1) := by
  induction m with
  | nil => simp [Memory.insert]
  | cons d m ih =>
    obtain ⟨k, u⟩ := d
    obtain ⟨hk, hm⟩ := List.pairwise_cons.mp h
    rw [Memory.insert]
    split
    · next hlt =>
      refine List.pairwise_cons.mpr ⟨fun c hc => ?_, h⟩
      rcases List.mem_cons.mp hc with rfl | hc
      · exact hlt
      · exact hlt.trans (hk c hc)
    · next hge =>
      have hka : k ≠ a := hne (k, u) (by simp)
      refine List.pairwise_cons.mpr ⟨fun c hc => ?_, ih hm fun c hc => hne c (by simp [hc])⟩
      rcases Memory.mem_insert hc with rfl | hc
      · show k < a; omega
      · exact hk c hc

/-- A write inside the data space keeps the canonical form. -/
theorem Memory.wf_write {m : Memory} (h : Memory.wf m) {a : Nat} (ha : a < dataCells) (v : Byte) :
    Memory.wf (Memory.write m a v) := by
  unfold Memory.write
  split
  · exact Memory.wf_erase h a
  · next hv =>
    refine ⟨Memory.pairwise_insert (Memory.wf_erase h a).1 fun c hc => Memory.ne_of_mem_erase hc, fun c hc => ?_⟩
    rcases Memory.mem_insert hc with rfl | hc
    · exact ⟨ha, hv⟩
    · exact (Memory.wf_erase h a).2 c hc

theorem Memory.lt_of_mem_ofBytes {vs : List Byte} {base : Nat} {c : Host.Cell}
    (h : c ∈ Memory.ofBytes base vs) : base ≤ c.1 ∧ c.1 < base + vs.length ∧ c.2 ≠ Memory.unlisted := by
  induction vs generalizing base with
  | nil => simp [Memory.ofBytes] at h
  | cons v vs ih =>
    rw [Memory.ofBytes] at h
    split at h
    · have := ih h; simp only [List.length_cons]; exact ⟨by omega, by omega, this.2.2⟩
    · next hv =>
      rcases List.mem_cons.mp h with rfl | h
      · simp [hv]
      · have := ih h; simp only [List.length_cons]; exact ⟨by omega, by omega, this.2.2⟩

theorem Memory.pairwise_ofBytes (vs : List Byte) (base : Nat) :
    (Memory.ofBytes base vs).Pairwise (fun c d => c.1 < d.1) := by
  induction vs generalizing base with
  | nil => exact .nil
  | cons v vs ih =>
    rw [Memory.ofBytes]
    split
    · exact ih _
    · exact List.pairwise_cons.mpr ⟨fun c hc => (Memory.lt_of_mem_ofBytes hc).1, ih _⟩

/-- The memory made of up to eight bytes is in canonical form. -/
theorem Memory.wf_ofBytes (vs : List Byte) (h : vs.length ≤ dataCells) : Memory.wf (Memory.ofBytes 0 vs) :=
  ⟨Memory.pairwise_ofBytes vs 0, fun c hc => by
    have := Memory.lt_of_mem_ofBytes hc; exact ⟨by omega, this.2.2⟩⟩

/-- Reset memory is in canonical form. -/
theorem reset_memory_wf : Memory.wf State.reset.mem := Memory.wf_nil

end Sys2Proof.Machine
end

