-- ==== Sys2Proof/Laws/Ops.lean ====
section
/-! SUPPORT. What each shared operation can do, said once. -/

namespace Sys2Proof.Machine

/-- Everything a read of the second source can do: it answers the byte and uses up `d` free values, exactly as
`SecondSource` says (R56). -/
theorem src2_ok {op2 : Op2} {s s' : State} {b : Byte} (h : src2 op2 s = .ok (b, s')) :
    ∃ d, SecondSource s op2 b d ∧ s' = { s with draws := s.draws + d } := by
  unfold src2 at h
  split at h
  · next hlt =>
    cases h
    exact ⟨0, .inl ⟨hlt, by simp [readReg, hlt], rfl⟩, rfl⟩
  · next hge =>
    have hge : 4 ≤ op2.toNat := by omega
    split at h
    · next hc => cases h; exact ⟨1, .inr (.inl ⟨hge, hc, rfl, rfl⟩), rfl⟩
    · next hc =>
      cases h
      exact ⟨0, .inr (.inr ⟨hge, hc, by simp [readReg, Nat.mod_lt], rfl⟩), rfl⟩
    · cases h

/-- The one way a read of the second source stops (R56). -/
theorem src2_error {op2 : Op2} {s : State} {e : Fault} :
    src2 op2 s = .error e ↔
      4 ≤ op2.toNat ∧ s.cfg.src2High = .fault ∧ e = .src2IndexOutOfRange op2 := by
  unfold src2
  split
  · next hlt => exact ⟨fun h => (by cases h), fun h => absurd hlt (by omega)⟩
  · have hge : 4 ≤ op2.toNat := by omega
    cases hc : s.cfg.src2High <;> simp [hge, eq_comm]

/-- A second source that gives a byte is read as that byte. -/
theorem src2_of_secondSource {op2 : Op2} {s : State} {b : Byte} {d : Nat} (h : SecondSource s op2 b d) :
    src2 op2 s = .ok (b, { s with draws := s.draws + d }) := by
  unfold src2
  rcases h with ⟨hlt, hb, rfl⟩ | ⟨hge, hc, rfl, rfl⟩ | ⟨hge, hc, hb, rfl⟩
  · rw [Vector.getElem?_eq_getElem hlt] at hb
    cases hb
    simp [hlt, readReg]
  · rw [dif_neg (by omega), hc]
    rfl
  · have hm : op2.toNat % 4 < 4 := Nat.mod_lt _ (by decide)
    rw [Vector.getElem?_eq_getElem hm] at hb
    cases hb
    rw [dif_neg (by omega), hc]
    rfl

/-- Everything ADD, SUB, AND or OR can do when it goes on. -/
theorem twoSource_next {f : Byte → Byte → Byte} {record : RegIdx → Op2 → Byte → TraceRecord} {op1 : Op1}
    {op2 : Op2} {s t : State} (h : twoSource f record op1 op2 s = .next t) :
    ∃ b d, SecondSource s op2 b d ∧
      t = retire (record (rdOf op1 s) op2 (f (readReg (rdOf op1 s) s) b)) .increment
        (writeReg (rdOf op1 s) (f (readReg (rdOf op1 s) s) b) { s with draws := s.draws + d }) := by
  unfold twoSource at h
  split at h
  · cases h
  · next b s' hs =>
    obtain ⟨d, hd, rfl⟩ := src2_ok hs
    cases h
    exact ⟨b, d, hd, rfl⟩

/-- ADD, SUB, AND and OR go on whenever the second source gives a byte. -/
theorem twoSource_of_secondSource (f : Byte → Byte → Byte) (record : RegIdx → Op2 → Byte → TraceRecord)
    (op1 : Op1) {op2 : Op2} {s : State} {b : Byte} {d : Nat} (h : SecondSource s op2 b d) :
    twoSource f record op1 op2 s =
      .next (retire (record (rdOf op1 s) op2 (f (readReg (rdOf op1 s) s) b)) .increment
        (writeReg (rdOf op1 s) (f (readReg (rdOf op1 s) s) b) { s with draws := s.draws + d })) := by
  simp [twoSource, src2_of_secondSource h]

/-- The one way ADD, SUB, AND or OR stops (R56). -/
theorem twoSource_fault {f : Byte → Byte → Byte} {record : RegIdx → Op2 → Byte → TraceRecord} {op1 : Op1}
    {op2 : Op2} {s : State} {e : Fault} :
    twoSource f record op1 op2 s = .fault e ↔
      4 ≤ op2.toNat ∧ s.cfg.src2High = .fault ∧ e = .src2IndexOutOfRange op2 := by
  rw [← src2_error]
  unfold twoSource
  split <;> simp_all

theorem twoSource_not_refused {f : Byte → Byte → Byte} {record : RegIdx → Op2 → Byte → TraceRecord} {op1 : Op1}
    {op2 : Op2} {s : State} {r : Refusal} : twoSource f record op1 op2 s ≠ .refused r := by
  unfold twoSource
  split <;> simp

end Sys2Proof.Machine
end

