-- ==== Sys2Proof/Laws/Step.lean ====
section
/-! SUPPORT. What a step can do, said once: it holds, it runs the decoded instruction, or it dispatches UNKNOWN. -/

namespace Sys2Proof.Machine

theorem canStep_iff {s : State} : canStep s = true ↔ Continues s := by
  simp [canStep]

theorem fetch_of_continues {s : State} (h : Continues s) : fetch s = s.prog[s.pc]? := by
  rw [fetch, if_pos (canStep_iff.mpr h)]

theorem fetch_eq_none_iff {s : State} : fetch s = none ↔ ¬ Continues s := by
  rw [← canStep_iff, fetch]
  split
  · next h => simp [h, (canStep_iff.mp h).2]
  · next h => simp [h]

theorem fetch_eq_some {s : State} {w : Byte} (h : fetch s = some w) : Continues s ∧ s.prog[s.pc]? = some w := by
  have hc : Continues s := by
    by_contra hn
    simp [fetch_eq_none_iff.mpr hn] at h
  exact ⟨hc, fetch_of_continues hc ▸ h⟩

/-- The inversion of `step`: everything a step can answer comes from one of these three cases. -/
theorem step_cases (s : State) :
    (¬ Continues s ∧ step s = .next s) ∨
    (∃ i, Runs s i ∧ step s = exec i s) ∨
    (∃ w, Continues s ∧ s.prog[s.pc]? = some w ∧ s.cfg.optable.lookup (fieldOpc w) = none ∧
      step s = .next (retire (.unknown (fieldOpc w)) .increment s)) := by
  cases hf : fetch s with
  | none => exact .inl ⟨fetch_eq_none_iff.mp hf, by simp [step, hf, hold]⟩
  | some w =>
    obtain ⟨hc, hw⟩ := fetch_eq_some hf
    cases hl : s.cfg.optable.lookup (fieldOpc w) with
    | some op =>
      exact .inr (.inl ⟨buildInstr op (fieldOp1 w) (fieldOp2 w), ⟨hc, w, hw, by simp [decode, hl]⟩,
        by simp [step, hf, decode, hl]⟩)
    | none =>
      exact .inr (.inr ⟨w, hc, hw, hl, by simp [step, hf, decode, hl, execRejected, execUnknown]⟩)

theorem core_run_next {M : Host.Core} {n : Nat} {s t : M.State} (h : M.step s = .next t) :
    M.run (n + 1) s = M.run n t := by simp [Host.Core.run, h]

theorem core_run_fault {M : Host.Core} {n : Nat} {s : M.State} {f : M.Fault} (h : M.step s = .fault f) :
    M.run (n + 1) s = .fault f := by simp [Host.Core.run, h]

theorem core_run_refused {M : Host.Core} {n : Nat} {s : M.State} {r : M.Refusal} (h : M.step s = .refused r) :
    M.run (n + 1) s = .refused r := by simp [Host.Core.run, h]

/-- A run of several steps is the host's run of the core. -/
theorem runFor_eq_core_run (n : Nat) (s : State) : runFor n s = Host.Core.run Sys2Proof.core n s := by
  induction n generalizing s with
  | zero => rfl
  | succ n ih =>
    rw [runFor]
    cases h : step s with
    | next t => exact (ih t).trans (core_run_next (M := Sys2Proof.core) h).symm
    | fault f => exact (core_run_fault (M := Sys2Proof.core) h).symm
    | refused r => exact (core_run_refused (M := Sys2Proof.core) h).symm

/-- A property that every step keeps holds after any number of steps. -/
theorem runFor_keeps {P : State → Prop} (hstep : ∀ s t, P s → step s = .next t → P t) {n : Nat} {s t : State}
    (hs : P s) (h : runFor n s = .next t) : P t := by
  induction n generalizing s with
  | zero => cases h; exact hs
  | succ n ih =>
    rw [runFor] at h
    cases hst : step s with
    | next u => rw [hst] at h; exact ih (hstep s u hs hst) h
    | fault f => rw [hst] at h; cases h
    | refused r => rw [hst] at h; cases h

end Sys2Proof.Machine
end

