-- ==== Sys2Proof/Laws/Exec.lean ====
section
/-! SUPPORT. What each instruction answers, said once, so that no later proof unfolds a meaning. -/

namespace Sys2Proof.Machine

variable (op1 : Op1) (op2 : Op2) (s : State)

theorem exec_mov : exec (.mov op1 op2) s =
    .next (retire (.mov (rdOf op1 s) op2) .increment (writeReg (rdOf op1 s) (immediate op2) s)) := rfl

theorem exec_ld : exec (.ld op1 op2) s =
    .next (retire (.ld (rdOf op1 s) op2 (memRead op2.toNat s)) .increment
      (writeReg (rdOf op1 s) (memRead op2.toNat s) s)) := rfl

theorem exec_st : exec (.st op1 op2) s =
    .next (retire (.st op2 (rdOf op1 s) (readReg (rdOf op1 s) s)) .increment
      (memWrite op2.toNat (readReg (rdOf op1 s) s) s)) := rfl

theorem exec_jmp : exec (.jmp op1 op2) s = .next (retire (.jmp op2) (.jumpTo op2.toNat) s) := rfl

theorem exec_jz_taken (h : readReg (rdOf op1 s) s = 0) : exec (.jz op1 op2) s =
    .next (retire (.jzTaken (rdOf op1 s) op2) (.jumpTo op2.toNat) s) := by
  simp [exec, execJz, isZero, h, jumpTarget]

theorem exec_jz_not_taken (h : readReg (rdOf op1 s) s ≠ 0) : exec (.jz op1 op2) s =
    .next (retire (.jzNotTaken (rdOf op1 s)) .increment s) := by
  have hz : isZero (readReg (rdOf op1 s) s) = false := by simpa [isZero] using h
  simp [exec, execJz, hz]

theorem exec_hlt : exec (.hlt op1 op2) s = .next (retire .hlt .halt { s with running := false }) := rfl

theorem exec_add : exec (.add op1 op2) s = twoSource add8 .add op1 op2 s := rfl
theorem exec_sub : exec (.sub op1 op2) s = twoSource sub8 .sub op1 op2 s := rfl
theorem exec_and : exec (.and op1 op2) s = twoSource and8 .and op1 op2 s := rfl
theorem exec_or : exec (.or op1 op2) s = twoSource or8 .or op1 op2 s := rfl

/-- MOV's immediate is the number in its field (R57). -/
@[simp] theorem immediate_toNat : (immediate op2).toNat = op2.toNat := by
  have := op2.isLt
  simp only [immediate, BitVec.truncate_eq_setWidth, BitVec.toNat_setWidth]
  omega

end Sys2Proof.Machine
end

