-- ==== Sys2Proof/Laws/PerInstr.lean ====
section
/-! SUPPORT. Statements about every instruction as syntax, one lemma for each constructor. -/

namespace Sys2Proof.Laws.Fields

/-- An instruction is its operation and its two raw fields, and the word it is encoded by carries both fields at
their places (R51). -/
def Statement (i : Sys2Proof.Instr) : Prop :=
  Sys2Proof.buildInstr i.operation i.op1 i.op2 = i ∧
  ∀ t w, Sys2Proof.encode t i = some w → Sys2Proof.fieldOp1 w = i.op1 ∧ Sys2Proof.fieldOp2 w = i.op2

theorem fields_of_composeWord (k : Sys2Proof.Opc) (a : Sys2Proof.Op1) (b : Sys2Proof.Op2) :
    Sys2Proof.fieldOpc (Sys2Proof.composeWord k a b) = k ∧
    Sys2Proof.fieldOp1 (Sys2Proof.composeWord k a b) = a ∧
    Sys2Proof.fieldOp2 (Sys2Proof.composeWord k a b) = b := by
  revert k a b; decide

theorem word_of_fields (w : Sys2Proof.Byte) :
    Sys2Proof.composeWord (Sys2Proof.fieldOpc w) (Sys2Proof.fieldOp1 w) (Sys2Proof.fieldOp2 w) = w := by
  revert w; decide

theorem encode_fields {t : Sys2Proof.OpTable} {i : Sys2Proof.Instr} {w : Sys2Proof.Byte}
    (h : Sys2Proof.encode t i = some w) :
    Sys2Proof.fieldOp1 w = i.op1 ∧ Sys2Proof.fieldOp2 w = i.op2 := by
  obtain ⟨k, -, rfl⟩ := Option.map_eq_some_iff.mp h
  exact (fields_of_composeWord k i.op1 i.op2).2

theorem add (a : Sys2Proof.Op1) (b : Sys2Proof.Op2) : Statement (.add a b) := ⟨rfl, fun _ _ => encode_fields⟩
theorem mov (a : Sys2Proof.Op1) (b : Sys2Proof.Op2) : Statement (.mov a b) := ⟨rfl, fun _ _ => encode_fields⟩
theorem sub (a : Sys2Proof.Op1) (b : Sys2Proof.Op2) : Statement (.sub a b) := ⟨rfl, fun _ _ => encode_fields⟩
theorem ld (a : Sys2Proof.Op1) (b : Sys2Proof.Op2) : Statement (.ld a b) := ⟨rfl, fun _ _ => encode_fields⟩
theorem st (a : Sys2Proof.Op1) (b : Sys2Proof.Op2) : Statement (.st a b) := ⟨rfl, fun _ _ => encode_fields⟩
theorem jmp (a : Sys2Proof.Op1) (b : Sys2Proof.Op2) : Statement (.jmp a b) := ⟨rfl, fun _ _ => encode_fields⟩
theorem jz (a : Sys2Proof.Op1) (b : Sys2Proof.Op2) : Statement (.jz a b) := ⟨rfl, fun _ _ => encode_fields⟩
theorem hlt (a : Sys2Proof.Op1) (b : Sys2Proof.Op2) : Statement (.hlt a b) := ⟨rfl, fun _ _ => encode_fields⟩
theorem and (a : Sys2Proof.Op1) (b : Sys2Proof.Op2) : Statement (.and a b) := ⟨rfl, fun _ _ => encode_fields⟩
theorem or (a : Sys2Proof.Op1) (b : Sys2Proof.Op2) : Statement (.or a b) := ⟨rfl, fun _ _ => encode_fields⟩

end Sys2Proof.Laws.Fields
end

