-- ==== Sys2Proof/Tests/Slice0.lean ====
section
/-! SUPPORT. The model's own tests. Expected results come from the spec: E<n>, V<n> and P<n> are the worked examples
and vectors of 95_test_vectors.md; words are written out bit by bit from 30_encoding.md R51, R58 and R59. The second
half shows, for each statement with hypotheses, a state and operands that meet them together. -/

namespace Sys2Proof.Tests

open Sys2Proof Sys2Proof.Machine

/-- A machine right after a reset: registers and program as given, `MEM_init` 10 at cell 0 and 255 at cell 7. -/
def machine (t : OpTable) (m : RegMap) (h : Src2High) (regs : Vector Byte 4) (prog : List Byte) : State :=
  launchState { cfg := { optable := t, regmap := m, src2High := h, progCapacity := 256 }, prog := prog,
                initRegs := regs, initMem := #v[10, 0, 0, 0, 0, 0, 0, 255] }

/-- Profile A, identity, `draw`. -/
abbrev onA := machine tableA .identity .draw

/-- Profile B, identity, `draw`. -/
abbrev onB := machine tableB .identity .draw

/-- What a next state shows; nothing after a fault or a refusal. -/
def shown {α : Type} (o : Host.Outcome State Fault Refusal) (f : State → α) : Option α :=
  match o with
  | .next t => some (f t)
  | .fault _ => none
  | .refused _ => none

/-- Profile A without opcode 7 (95_test_vectors.md section 2.10). -/
def narrowA : OpTable := #v[some .add, some .mov, some .sub, some .ld, some .st, some .jmp, some .jz, none]

/-! ### The static checks refuse -/

theorem test_wf_refuses_and_in_profile_A : (Instr.and 0 1).wf tableA = false := by decide
theorem test_wf_refuses_jz_in_profile_B : (Instr.jz 0 1).wf tableB = false := by decide
theorem test_wf_refuses_hlt_in_narrow_table : (Instr.hlt 0 0).wf narrowA = false := by decide
theorem test_oneOpcodeEach_refuses_double : OpTable.oneOpcodeEach
    #v[some .add, some .add, none, none, none, none, none, none] = false := by decide
theorem test_config_refuses_zero_capacity :
    Config.wf { optable := tableA, regmap := .identity, src2High := .draw, progCapacity := 0 } = false := by decide
theorem test_fits_refuses_long_program :
    Config.fits { optable := tableA, regmap := .identity, src2High := .draw, progCapacity := 1 } [0, 0] = false := by
  decide

/-! ### Decoding, one word for each constructor -/

theorem test_decode_add : decode tableA 0b00011111#8 = .ok (.add 3 7) := by decide
theorem test_decode_mov : decode tableB 0b00101011#8 = .ok (.mov 1 3) := by decide
theorem test_decode_sub : decode tableA 0b01011010#8 = .ok (.sub 3 2) := by decide
theorem test_decode_ld : decode tableA 0b01100111#8 = .ok (.ld 0 7) := by decide
theorem test_decode_st : decode tableB 0b10010101#8 = .ok (.st 2 5) := by decide
theorem test_decode_jmp : decode tableA 0b10100010#8 = .ok (.jmp 0 2) := by decide
theorem test_decode_jz : decode tableA 0b11000111#8 = .ok (.jz 0 7) := by decide
theorem test_decode_hlt : decode tableA 0b11111111#8 = .ok (.hlt 3 7) := by decide
theorem test_decode_and : decode tableB 0b11000111#8 = .ok (.and 0 7) := by decide
theorem test_decode_or : decode tableB 0b11111011#8 = .ok (.or 3 3) := by decide
theorem test_decode_unassigned : decode narrowA 0xE0 = .error (.unassignedOpcode 7) := by decide
/-- R64 -/
theorem test_encode_jmp : encode tableA (.jmp 0 2) = some 0xA2 := by decide
theorem test_encode_or : encode tableB (.or 3 2) = some 0xFA := by decide
theorem test_decodeTableWord : decodeTableWord 8 0x2B = some (.mov 1 3) := by decide

/-! ### One step of each instruction -/

/-- V20 -/
theorem test_add_wraps : shown (step (onA #v[200, 100, 0, 0] [0x01])) (fun t => (t.x, t.pc)) =
    some (#v[44, 100, 0, 0], 1) := by decide
/-- V23 -/
theorem test_add_same_register : shown (step (onB #v[0, 0, 0, 255] [0x1B])) (fun t => (t.x, t.trace)) =
    some (#v[0, 0, 0, 254], [.add 3 3 254]) := by decide
/-- V26 -/
theorem test_sub_wraps : shown (step (onA #v[5, 200, 0, 0] [0x41])) (fun t => (t.x, t.trace)) =
    some (#v[61, 200, 0, 0], [.sub 0 1 61]) := by decide
/-- V27 -/
theorem test_sub_order : shown (step (onB #v[0, 0, 16, 32] [0x5A])) (fun t => t.x) =
    some #v[0, 0, 16, 16] := by decide
/-- V31 -/
theorem test_mov_replaces_all_bits : shown (step (onA #v[0, 170, 0, 0] [0x2F])) (fun t => t.x) =
    some #v[0, 7, 0, 0] := by decide
/-- V10 to V13, E2 -/
theorem test_mov_remapped :
    shown (step (machine tableA .remapped .draw #v[9, 9, 9, 9] [0x30])) (fun t => t.x) = some #v[0, 9, 9, 9] ∧
    shown (step (machine tableA .remapped .draw #v[9, 9, 9, 9] [0x38])) (fun t => t.x) = some #v[9, 0, 9, 9] := by
  decide
/-- V40 -/
theorem test_ld : shown (step (onA #v[0, 0, 0, 0] [0x67])) (fun t => (t.x, t.trace)) =
    some (#v[255, 0, 0, 0], [.ld 0 7 255]) := by decide
/-- V41 -/
theorem test_ld_cell_zero : shown (step (onB #v[0, 0, 0, 1] [0x78])) (fun t => t.x) =
    some #v[0, 0, 0, 10] := by decide
/-- V43 -/
theorem test_st : shown (step (onA #v[0, 0, 0, 250] [0x9F])) (fun t => (t.x, t.mem, t.trace)) =
    some (#v[0, 0, 0, 250], [(0, 10), (7, 250)], [.st 7 3 250]) := by decide
/-- Storing what an unlisted cell reads as keeps the memory canonical. -/
theorem test_st_zero_unlists : shown (step (onA #v[0, 0, 0, 0] [0x87])) (fun t => t.mem) = some [(0, 10)] := by
  decide
/-- V50 -/
theorem test_jmp : shown (step (onA #v[0, 0, 0, 0] [0xA2, 0x25, 0xE0])) (fun t => (t.pc, t.trace)) =
    some (2, [.jmp 2]) := by decide
/-- V51 -/
theorem test_jmp_past_the_end : shown (step (onA #v[0, 0, 0, 0] [0xBA])) (fun t => (t.pc, phase t)) =
    some (2, .exhausted) := by decide
/-- V53 -/
theorem test_jz_taken : shown (step (onA #v[0, 1, 1, 1] [0xC3])) (fun t => (t.pc, t.trace)) =
    some (3, [.jzTaken 0 3]) := by decide
/-- V56 -/
theorem test_jz_tests_all_bits : shown (step (onA #v[0, 0, 0, 128] [0xDF])) (fun t => (t.pc, t.trace)) =
    some (1, [.jzNotTaken 3]) := by decide
/-- V59 -/
theorem test_hlt : shown (step (onA #v[0, 0, 0, 0] [0xFF, 0x25])) (fun t => (t.running, t.x, t.trace, phase t)) =
    some (false, #v[0, 0, 0, 0], [.hlt], .halted) := by decide
/-- V63 -/
theorem test_and : shown (step (onB #v[204, 170, 0, 0] [0xC1])) (fun t => (t.x, t.trace)) =
    some (#v[136, 170, 0, 0], [.and 0 1 136]) := by decide
/-- V67 -/
theorem test_and_disjoint : shown (step (onB #v[0, 0, 240, 15] [0xDA])) (fun t => t.x) =
    some #v[0, 0, 240, 0] := by decide
/-- V64 -/
theorem test_or : shown (step (onB #v[204, 170, 0, 0] [0xE1])) (fun t => (t.x, t.trace)) =
    some (#v[238, 170, 0, 0], [.or 0 1 238]) := by decide
/-- V68 -/
theorem test_or_high_register : shown (step (onB #v[0, 0, 240, 15] [0xFA])) (fun t => (t.x, t.running)) =
    some (#v[0, 0, 240, 255], true) := by decide
/-- V80, `draw`: everything but the value of R0 is fixed. -/
theorem test_add_draw : shown (step (onA #v[10, 20, 30, 40] [0x05]))
    (fun t => (t.x[1], t.x[2], t.x[3], t.pc, t.draws)) = some (20, 30, 40, 1, 1) := by decide
/-- V81, `truncate` -/
theorem test_sub_truncate : shown (step (machine tableA .identity .truncate #v[10, 20, 30, 40] [0x47]))
    (fun t => (t.x, t.trace)) = some (#v[226, 20, 30, 40], [.sub 0 7 226]) := by decide
/-- V82, `fault` -/
theorem test_and_fault : step (machine tableB .identity .fault #v[240, 20, 60, 40] [0xC6]) =
    .fault (.src2IndexOutOfRange 6) := rfl
/-- V90 -/
theorem test_unknown : shown (step (machine narrowA .identity .draw #v[0, 0, 0, 0] [0xE0, 0x21]))
    (fun t => (t.x, t.pc, t.running, t.trace)) = some (#v[0, 0, 0, 0], 1, true, [.unknown 7]) := by decide
/-- V74 -/
theorem test_held_after_the_end : step (onA #v[1, 2, 3, 4] []) = .next (onA #v[1, 2, 3, 4] []) := rfl

/-! ### Reset, interface, text -/

theorem test_reset_is_the_default_launch : launch
    { cfg := { optable := tableA, regmap := .identity, src2High := .draw, progCapacity := 256 }, prog := [],
      initRegs := #v[0, 0, 0, 0], initMem := #v[0, 0, 0, 0, 0, 0, 0, 0] } = .next State.reset := rfl
/-- R7 -/
theorem test_launch_refuses_long_program : launch
    { cfg := { optable := tableA, regmap := .identity, src2High := .draw, progCapacity := 1 }, prog := [0, 0],
      initRegs := #v[0, 0, 0, 0], initMem := #v[0, 0, 0, 0, 0, 0, 0, 0] } = .refused .launchOutsideModel := rfl
theorem test_withFetchWord : shown (step (State.reset.withFetchWord 8 0x2F)) (fun t => t.x) =
    some #v[0, 7, 0, 0] := by decide
/-- E1 -/
theorem test_text_add : recordText (.add 0 3 7) = "R0 = R0 + R3 = 7" := by decide
/-- V40, V42 -/
theorem test_text_ld_st : recordText (.ld 0 7 255) = "R0 = MEM[7] = 255" ∧
    recordText (.st 0 0 171) = "MEM[0] = R0 = 171" := by decide
/-- V53, V54 -/
theorem test_text_jz : recordText (.jzTaken 0 3) = "JZ: R0 == 0, jump to 3" ∧
    recordText (.jzNotTaken 0) = "JZ: R0 != 0, no jump" := by decide
/-- E3 -/
theorem test_text_trace : traceText [.jmp 2, .hlt] = "JMP to 2\nHLT: Halting\n" := by decide
/-- R64, R66 -/
theorem test_asm : asmText .identity (.mov 1 0) = "MOV R1,#0" ∧ asmText .remapped (.mov 2 7) = "MOV R0,#7" ∧
    asmText .identity (.add 0 5) = "ADD R0,R5" ∧ asmText .identity (.jz 0 7) = "JZ R0,7" := by decide

/-! ### A witness for the hypotheses of each statement -/

theorem witness_EveryWordIsLegal : Continues (onA #v[0, 0, 0, 0] [0xFF]) ∧
    (onA #v[0, 0, 0, 0] [0xFF]).cfg.src2High ≠ .fault := by decide

theorem witness_DecodeOfEncodeIsTheInstruction : (Instr.or 3 7).wf tableB = true := by decide

theorem witness_EncodeOfDecodeIsTheWord : tableA.oneOpcodeEach = true ∧ decode tableA 0xFF = .ok (.hlt 3 7) := by
  decide

theorem witness_IllFormedInstructionsHaveNoWord : (Instr.jz 3 7).wf tableB = false := by decide

theorem witness_AssemblerCodesResolve : regCode .remapped 1 = some 3 ∧ regCode .identity 3 = some 3 := by decide

/-- The words of the ten result statements, at the top of each range. -/
theorem witness_words : (0x1F#8).toNat = 0x00 + 8 * (3#2).toNat + (7#3).toNat ∧
    (0x3F#8).toNat = 0x20 + 8 * (3#2).toNat + (7#3).toNat ∧ (0x5F#8).toNat = 0x40 + 8 * (3#2).toNat + (7#3).toNat ∧
    (0x7F#8).toNat = 0x60 + 8 * (3#2).toNat + (7#3).toNat ∧ (0x9F#8).toNat = 0x80 + 8 * (3#2).toNat + (7#3).toNat ∧
    (0xBF#8).toNat = 0xA0 + 8 * (3#2).toNat + (7#3).toNat ∧ (0xDF#8).toNat = 0xC0 + 8 * (3#2).toNat + (7#3).toNat ∧
    (0xFF#8).toNat = 0xE0 + 8 * (3#2).toNat + (7#3).toNat := by decide

/-- The hypothesis of `AddResult`, `SubResult`, `AndResult` and `OrResult`, for a register number 0..3 at its top. -/
theorem witness_SecondSource_register : SecondSource (onA #v[1, 2, 3, 4] []) 3 4 0 :=
  .inl ⟨by decide, rfl, rfl⟩

/-- The same under `draw`, for 4..7 at its foot. -/
theorem witness_SecondSource_draw : SecondSource (onA #v[1, 2, 3, 4] []) 4 (Config.drawByte 0) 1 :=
  .inr (.inl ⟨by decide, rfl, rfl, rfl⟩)

/-- The same under `truncate`, for 4..7 at its top. -/
theorem witness_SecondSource_truncate : SecondSource (machine tableB .identity .truncate #v[1, 2, 3, 4] []) 7 4 0 :=
  .inr (.inr ⟨by decide, rfl, rfl, rfl⟩)

theorem witness_StResult : effAddr 7 = 7 := rfl

/-- Both clauses of `JzResult`: a zero register, and the least and a sign-bit value that are not zero. -/
theorem witness_JzResult : (readReg (rdOf 0 (onA #v[0, 1, 128, 4] [])) (onA #v[0, 1, 128, 4] [])).toNat = 0 ∧
    (readReg (rdOf 1 (onA #v[0, 1, 128, 4] [])) (onA #v[0, 1, 128, 4] [])).toNat ≠ 0 ∧
    (readReg (rdOf 2 (onA #v[0, 1, 128, 4] [])) (onA #v[0, 1, 128, 4] [])).toNat ≠ 0 := by decide

theorem witness_OneRegisterAsBothSources : (3#3).toNat = (rdOf 3 (onA #v[1, 2, 3, 4] [])).val ∧
    (1#3).toNat = (rdOf 3 (machine tableB .remapped .fault #v[1, 2, 3, 4] [])).val := by decide

/-- A machine whose next word has an unassigned opcode. -/
abbrev onNarrow : State := machine narrowA .identity .draw #v[0, 0, 0, 0] [0xE0, 0x21]

theorem witness_UnassignedOpcodeLogsAndAdvances : Continues onNarrow ∧ onNarrow.prog[onNarrow.pc]? = some 0xE0 ∧
    onNarrow.cfg.optable.lookup (fieldOpc 0xE0) = none := by decide

theorem witness_StopsExactlyUnderTheFaultSetting :
    exec (.sub 0 4) (machine tableA .identity .fault #v[1, 2, 3, 4] []) = .fault (.src2IndexOutOfRange 4) := rfl

/-- The premise at the number 4 under `draw`, and at the number 3 under `fault`. -/
theorem witness_EveryOtherInstructionCompletes :
    (ReadsSecondSource (Instr.or 0 4).operation → 4 ≤ (4#3).toNat → (onB #v[1, 2, 3, 4] []).cfg.src2High ≠ .fault) ∧
    (ReadsSecondSource (Instr.or 0 3).operation → 4 ≤ (3#3).toNat →
      (machine tableB .identity .fault #v[1, 2, 3, 4] []).cfg.src2High ≠ .fault) :=
  ⟨fun _ _ => by decide, fun _ h => absurd h (by decide)⟩

/-- Each clause where the ranges of `op2` meet: a read that answers a byte at 3 and at 4, an instruction that reads a
second source, and a byte that the source gives. -/
theorem witness_SecondSourceIsReadAsTheSettingSays :
    src2 3 (onA #v[1, 2, 3, 4] []) = .ok (4, onA #v[1, 2, 3, 4] []) ∧
    src2 4 (onA #v[1, 2, 3, 4] []) = .ok (Config.drawByte 0, { onA #v[1, 2, 3, 4] [] with draws := 1 }) ∧
    ReadsSecondSource (Instr.or 0 4).operation ∧ (Instr.or 0 4).op2 = 4 ∧ (3#3).toNat < 4 ∧ 4 ≤ (4#3).toNat ∧
    SecondSource (onA #v[1, 2, 3, 4] []) 3 4 0 :=
  ⟨rfl, rfl, .inr (.inr (.inr rfl)), rfl, by decide, by decide, witness_SecondSource_register⟩

theorem witness_FreeValuesReachOnlyHighSources :
    (ReadsSecondSource (Instr.add 0 4).operation → 4 ≤ (4#3).toNat →
      (machine tableA .identity .truncate #v[1, 2, 3, 4] []).cfg.src2High ≠ .draw) ∧
    ∃ t, exec (.add 0 4) (machine tableA .identity .truncate #v[1, 2, 3, 4] []) = .next t :=
  ⟨fun _ _ => by decide, _, rfl⟩

/-- Under the remapped policy, a program that writes R0 by the fallback and R1. -/
abbrev onRemapped : State := machine tableA .remapped .draw #v[9, 9, 9, 9] [0x30, 0x38]

theorem witness_RemappedCodesFallBack : onRemapped.cfg.regmap = .remapped := rfl

theorem witness_RemappedRunKeepsUpperRegisters : onRemapped.cfg.regmap = .remapped ∧
    shown (runFor 2 onRemapped) (fun t => t.x) = some #v[0, 0, 9, 9] := by decide

/-- The three clauses: JMP, HLT, and a word dispatched to UNKNOWN. -/
theorem witness_IgnoredFieldsChangeNothing :
    (Continues (onA #v[0, 0, 0, 0] [0]) ∧ fieldOpc 0xA2 = fieldOpc 0xBA ∧
      tableA.lookup (fieldOpc 0xA2) = some .jmp ∧ fieldOp2 0xA2 = fieldOp2 0xBA ∧
      shown (step (onA #v[0, 0, 0, 0] [0xA2])) (fun t => t.pc) = some 2) ∧
    (fieldOpc 0xE0 = fieldOpc 0xFF ∧ tableA.lookup (fieldOpc 0xE0) = some .hlt ∧
      shown (step (onA #v[0, 0, 0, 0] [0xE0])) (fun t => t.pc) = some 0) ∧
    (narrowA.lookup (fieldOpc 0xE0) = none ∧ shown (step onNarrow) (fun t => t.pc) = some 1) := by decide

theorem witness_StepRunsTheDecodedInstruction : (onB #v[1, 2, 3, 4] [0xFF]).running = true ∧
    (onB #v[1, 2, 3, 4] [0xFF]).pc < (onB #v[1, 2, 3, 4] [0xFF]).prog.length ∧
    (onB #v[1, 2, 3, 4] [0xFF]).prog[(onB #v[1, 2, 3, 4] [0xFF]).pc]? = some 0xFF ∧
    decode (onB #v[1, 2, 3, 4] [0xFF]).cfg.optable 0xFF = .ok (.or 3 7) := by decide

/-- An exhausted and a halted machine. -/
theorem witness_EndedRunIsHeldForGood : ¬ Continues (onA #v[0, 0, 0, 0] []) ∧
    ¬ Continues { onA #v[0, 0, 0, 0] [0xE0] with running := false } := by decide

theorem witness_EmptyProgramDoesNothing :
    (Config.mk tableB .remapped .truncate 1).wf = true ∧
    ∃ s, launch ⟨Config.mk tableB .remapped .truncate 1, [], #v[1, 2, 3, 4], #v[1, 2, 3, 4, 5, 6, 7, 8]⟩ = .next s :=
  ⟨by decide, _, rfl⟩

/-- A launch, a step that is taken, a held one, and a run of three steps of which one is taken. -/
theorem witness_OneRecordPerStep :
    (∃ s, launch ⟨Config.mk tableB .remapped .truncate 1, [0x21], #v[1, 2, 3, 4], #v[1, 2, 3, 4, 5, 6, 7, 8]⟩ =
      .next s) ∧
    Continues (onA #v[0, 0, 0, 0] [0x21]) ∧ (∃ t, step (onA #v[0, 0, 0, 0] [0x21]) = .next t) ∧
    ¬ Continues (onA #v[0, 0, 0, 0] []) ∧ (∃ t, step (onA #v[0, 0, 0, 0] []) = .next t) ∧
    (∃ t, runFor 3 (onA #v[0, 0, 0, 0] [0x21]) = .next t) ∧ stepsTaken 3 (onA #v[0, 0, 0, 0] [0x21]) = 1 :=
  ⟨⟨_, rfl⟩, by decide, ⟨_, rfl⟩, by decide, ⟨_, rfl⟩, ⟨_, rfl⟩, by decide⟩

theorem witness_RegistersAreWrittenOnlyThroughOperand1 :
    shown (step (onA #v[0, 0, 0, 0] [0x21])) (fun t => readReg 0 t) = some 1 ∧
    readReg 0 (onA #v[0, 0, 0, 0] [0x21]) = 0 := by decide

theorem witness_MemoryIsWrittenOnlyBySt :
    shown (step (onA #v[0, 0, 0, 250] [0x9F])) (fun t => memRead 7 t) = some 250 ∧
    memRead 7 (onA #v[0, 0, 0, 250] [0x9F]) = 255 := by decide

/-- A HLT step, two instructions, and a run under Profile B of a word that halts under Profile A. -/
theorem witness_RunningIsClearedOnlyByHlt :
    (∃ s, launch ⟨Config.mk tableB .remapped .draw 2, [0x21], #v[1, 2, 3, 4], #v[1, 0, 3, 0, 5, 6, 0, 8]⟩ = .next s) ∧
    (∃ t, step (onA #v[0, 0, 0, 0] [0xE0]) = .next t) ∧ (∃ t, exec (.jz 0 3) (onA #v[0, 0, 0, 0] []) = .next t) ∧
    (∃ t, exec (.hlt 3 7) (onA #v[0, 0, 0, 0] []) = .next t) ∧ (onB #v[0, 0, 0, 0] [0xE0]).cfg.optable = tableB ∧
    (onB #v[0, 0, 0, 0] [0xE0]).running = true ∧ (∃ t, runFor 2 (onB #v[0, 0, 0, 0] [0xE0]) = .next t) :=
  ⟨⟨_, rfl⟩, ⟨_, rfl⟩, ⟨_, rfl⟩, ⟨_, rfl⟩, rfl, rfl, ⟨_, rfl⟩⟩

theorem witness_ProgramAndConfigurationAreFixed :
    (∃ s, launch ⟨Config.mk tableA .identity .draw 2, [0x87, 0xE0], #v[1, 2, 3, 4], #v[1, 2, 3, 4, 5, 6, 7, 8]⟩ =
      .next s) ∧ ∃ t, runFor 2 (onA #v[1, 2, 3, 4] [0x87, 0xE0]) = .next t := ⟨⟨_, rfl⟩, _, rfl⟩

theorem witness_HighIndicesAreReachedBySequenceOnly :
    shown (step { onA #v[0, 0, 0, 0] [0x20, 0x20, 0x20, 0x20, 0x20, 0x20, 0x20, 0x20, 0xE0] with pc := 7 })
      (fun t => t.pc) = some 8 := by decide

/-- From RUN to HALTED, from RUN to EXHAUSTED, and EXHAUSTED held. -/
theorem witness_PhasesMoveAsTheControlUnitSays :
    phase (onA #v[0, 0, 0, 0] [0xE0]) = .run ∧
    shown (step (onA #v[0, 0, 0, 0] [0xE0])) phase = some .halted ∧
    shown (step (onA #v[0, 0, 0, 0] [0xA7])) phase = some .exhausted ∧
    phase (onA #v[0, 0, 0, 0] []) ≠ .run ∧ shown (step (onA #v[0, 0, 0, 0] [])) phase = some .exhausted := by decide

/-- V61 and V62. -/
theorem witness_SelfJumpRunsForever :
    (Runs (onB #v[0, 0, 0, 0] [0xA0]) (.jmp 0 0) ∧ (Instr.jmp 0 0).op2.toNat = (onB #v[0, 0, 0, 0] [0xA0]).pc ∧
      (Instr.jmp 0 0).operation = .jmp) ∧
    (Runs (onA #v[0, 0, 0, 0] [0xC0]) (.jz 0 0) ∧ (Instr.jz 0 0).op2.toNat = (onA #v[0, 0, 0, 0] [0xC0]).pc ∧
      (Instr.jz 0 0).operation = .jz ∧
      readReg (rdOf 0 (onA #v[0, 0, 0, 0] [0xC0])) (onA #v[0, 0, 0, 0] [0xC0]) = 0) :=
  ⟨⟨⟨by decide, 0xA0, rfl, rfl⟩, by decide, rfl⟩, ⟨⟨by decide, 0xC0, rfl, rfl⟩, by decide, rfl, by decide⟩⟩

/-- A program as long as the capacity. -/
theorem witness_ResetLeavesItsInputs : (Config.mk tableA .identity .draw 2).wf = true ∧
    [0x87#8, 0xE0#8].length ≤ (Config.mk tableA .identity .draw 2).progCapacity := by decide

theorem witness_InvariantHoldsAtReset :
    ∃ s, launch ⟨Config.mk tableA .remapped .draw 2, [0x87, 0xE0], #v[1, 2, 3, 4], #v[1, 0, 3, 0, 5, 6, 0, 8]⟩ =
      .next s := ⟨_, rfl⟩

/-- The invariant before a store, a HLT in the last word, and a jump past the end. -/
theorem witness_EveryStepKeepsTheInvariant :
    (RunInv (onA #v[0, 0, 0, 250] [0x9F]) ∧ ∃ t, step (onA #v[0, 0, 0, 250] [0x9F]) = .next t) ∧
    (RunInv (onA #v[0, 0, 0, 0] [0xE0]) ∧ ∃ t, step (onA #v[0, 0, 0, 0] [0xE0]) = .next t) ∧
    (RunInv (onA #v[0, 0, 0, 0] [0xA7]) ∧ ∃ t, step (onA #v[0, 0, 0, 0] [0xA7]) = .next t) :=
  ⟨⟨by decide, _, rfl⟩, ⟨by decide, _, rfl⟩, ⟨by decide, _, rfl⟩⟩

/-- `pc` at the top of its range, past the end by a jump. -/
theorem witness_PcFitsItsWidth : RunInv { onA #v[0, 0, 0, 0] [0xA7] with pc := 7 } ∧
    (Config.mk tableA .identity .draw 256).progCapacity = 256 := by decide

theorem witness_CanonicalMemoriesThatReadAlikeAreEqual :
    Memory.wf [(0, 10), (7, 255)] ∧ Memory.wf (Memory.write [(0, 10)] 7 255) ∧
    ∀ a < 8, Memory.read [(0, 10), (7, 255)] a = Memory.read (Memory.write [(0, 10)] 7 255) a := by decide

theorem witness_CellReadsAsItsLatestWrite : 7 < 8 ∧
    ∃ s, launch ⟨Config.mk tableA .identity .draw 2, [], #v[1, 2, 3, 4], #v[1, 0, 3, 0, 5, 6, 0, 8]⟩ = .next s :=
  ⟨by decide, _, rfl⟩

/-- V44 -/
theorem witness_LoadAfterStoreSeesTheStore : ∃ t u, exec (.st 3 2) (onA #v[0, 0, 0, 99] []) = .next t ∧
    exec (.ld 0 2) t = .next u := ⟨_, _, rfl, rfl⟩

theorem witness_TraceNeverInfluencesExecution :
    ∃ t, runFor 3 (onA #v[0, 0, 0, 0] [0x21, 0xA1]) = .next t := ⟨_, rfl⟩

theorem witness_TraceTextDeterminesTheTrace : traceText [.mov 0 7] = traceText [.mov 0 7] := rfl

end Sys2Proof.Tests
end

section
/-! PROOFS. Reset and its refusal (spec: 00_scope.md R7; 70_reset_and_hazards.md R170). -/

namespace Sys2Proof

@[simp] theorem Config.wf_iff (c : Config) : c.wf = true ↔ 0 < c.progCapacity := decide_eq_true_iff

@[simp] theorem Config.fits_iff (c : Config) (prog : List Byte) :
    c.fits prog = true ↔ prog.length ≤ c.progCapacity := decide_eq_true_iff

end Sys2Proof

namespace Sys2Proof.Machine

variable {inp : Inputs}

theorem launch_of_fits (hpos : 0 < inp.cfg.progCapacity) (hfits : inp.prog.length ≤ inp.cfg.progCapacity) :
    launch inp = .next (launchState inp) := by
  simp [launch, hpos, hfits]

theorem launch_of_not_fits (h : inp.cfg.progCapacity = 0 ∨ inp.cfg.progCapacity < inp.prog.length) :
    launch inp = .refused .launchOutsideModel := by
  have hnot : ¬(0 < inp.cfg.progCapacity ∧ inp.prog.length ≤ inp.cfg.progCapacity) := by omega
  simp [launch, hnot]

/-- What a reset can answer, each answer with its exact condition. -/
theorem launch_cases (inp : Inputs) :
    (0 < inp.cfg.progCapacity ∧ inp.prog.length ≤ inp.cfg.progCapacity ∧
      launch inp = .next (launchState inp)) ∨
    ((inp.cfg.progCapacity = 0 ∨ inp.cfg.progCapacity < inp.prog.length) ∧
      launch inp = .refused .launchOutsideModel) := by
  by_cases hbad : inp.cfg.progCapacity = 0 ∨ inp.cfg.progCapacity < inp.prog.length
  · exact .inr ⟨hbad, launch_of_not_fits hbad⟩
  · have hpos : 0 < inp.cfg.progCapacity := by omega
    have hfits : inp.prog.length ≤ inp.cfg.progCapacity := by omega
    exact .inl ⟨hpos, hfits, launch_of_fits hpos hfits⟩

theorem launch_ne_fault (inp : Inputs) (f : Fault) : launch inp ≠ .fault f := by
  obtain ⟨-, -, hnext⟩ | ⟨-, hrefused⟩ := launch_cases inp
  · simp [hnext]
  · simp [hrefused]

theorem launch_refused_iff (inp : Inputs) : (∃ r, launch inp = .refused r) ↔
    inp.cfg.progCapacity = 0 ∨ inp.cfg.progCapacity < inp.prog.length := by
  obtain ⟨hpos, hfits, hnext⟩ | ⟨hbad, hrefused⟩ := launch_cases inp
  · simp [hnext, hpos.ne', hfits]
  · simp [hrefused, hbad]

/-- Settles O41: `launch` has the two answers of `launch_cases`, neither of them a fault. -/
theorem launchIsRefusedExactlyWhenTheProgramDoesNotFit :
    Obligations.LaunchIsRefusedExactlyWhenTheProgramDoesNotFit :=
  fun inp => ⟨launch_ne_fault inp, launch_refused_iff inp⟩

end Sys2Proof.Machine
end

section
/-! PROOFS. What an instruction and a step can do, as equations of the next state: the inversion that every
invariant of the machine goes through (spec: 10_state.md R12, R17, R30; 40_control_unit.md R74 to R80). -/

namespace Sys2Proof

theorem buildInstr_operation (op : Operation) (a : Op1) (b : Op2) : (buildInstr op a b).operation = op := by
  cases op <;> rfl

/-- A word decodes to an instruction of the operation at its opcode (R73). -/
theorem lookup_of_decode {t : OpTable} {w : Byte} {i : Instr} (h : decode t w = .ok i) :
    t.lookup (fieldOpc w) = some i.operation := by
  unfold decode at h
  split at h
  · next op hop => cases h; rw [hop, buildInstr_operation]
  · cases h

/-- Profile B has no HLT (R59). -/
theorem tableB_lookup_ne_hlt : ∀ opc, tableB.lookup opc ≠ some .hlt := by decide

end Sys2Proof

namespace Sys2Proof.Machine

variable {i : Instr} {s t : State}

/-- The operations that write a register (R12). -/
abbrev registerWriters : List Operation := [.add, .sub, .mov, .ld, .and, .or]

/-- What an instruction `i` that goes on from `s` leaves: one register written, one cell written, a jump, a `JZ`
that falls through, or a halt. Nothing but the count of free values moves besides. -/
inductive ExecEffect (i : Instr) (s : State) : State → Prop
  | writesReg (hop : i.operation ∈ registerWriters) (v : Byte) (d : Nat) (r : TraceRecord) :
      ExecEffect i s (retire r .increment (writeReg (rdOf i.op1 s) v { s with draws := s.draws + d }))
  | writesCell (hop : i.operation = .st) (v : Byte) (r : TraceRecord) :
      ExecEffect i s (retire r .increment (memWrite i.op2.toNat v s))
  | jumps (hop : i.operation = .jmp ∨ i.operation = .jz) (r : TraceRecord) :
      ExecEffect i s (retire r (.jumpTo i.op2.toNat) s)
  | fallsThrough (hop : i.operation = .jz) (r : TraceRecord) : ExecEffect i s (retire r .increment s)
  | halts (hop : i.operation = .hlt) : ExecEffect i s (retire .hlt .halt { s with running := false })

/-- An instruction that writes the result of `twoSource` writes the register of its operand1. -/
theorem twoSource_effect {f : Byte → Byte → Byte} {record : RegIdx → Op2 → Byte → TraceRecord}
    (hop : i.operation ∈ registerWriters)
    (h : twoSource f record i.op1 i.op2 s = .next t) : ExecEffect i s t := by
  obtain ⟨b, d, -, rfl⟩ := twoSource_next h
  exact .writesReg hop _ d _

/-- The inversion of `exec`: every next state is one of the five effects, under the operation that has it. -/
theorem exec_effect (h : exec i s = .next t) : ExecEffect i s t := by
  cases i with
  | add op1 op2 => exact twoSource_effect (i := .add op1 op2) (by simp [Instr.operation]) h
  | sub op1 op2 => exact twoSource_effect (i := .sub op1 op2) (by simp [Instr.operation]) h
  | and op1 op2 => exact twoSource_effect (i := .and op1 op2) (by simp [Instr.operation]) h
  | or op1 op2 => exact twoSource_effect (i := .or op1 op2) (by simp [Instr.operation]) h
  | mov op1 op2 => cases h; exact .writesReg (i := .mov op1 op2) (by simp [Instr.operation]) _ 0 _
  | ld op1 op2 => cases h; exact .writesReg (i := .ld op1 op2) (by simp [Instr.operation]) _ 0 _
  | st op1 op2 => cases h; exact .writesCell (i := .st op1 op2) rfl _ _
  | jmp op1 op2 => cases h; exact .jumps (i := .jmp op1 op2) (.inl rfl) _
  | jz op1 op2 =>
    by_cases hz : readReg (rdOf op1 s) s = 0
    · rw [exec_jz_taken op1 op2 s hz] at h
      cases h; exact .jumps (i := .jz op1 op2) (.inr rfl) _
    · rw [exec_jz_not_taken op1 op2 s hz] at h
      cases h; exact .fallsThrough (i := .jz op1 op2) rfl _
  | hlt op1 op2 => cases h; exact .halts (i := .hlt op1 op2) rfl

/-- The inversion of `step` for a next state: it is held, one instruction had its effect, or UNKNOWN advanced. -/
theorem step_next_cases (h : step s = .next t) :
    (¬ Continues s ∧ t = s) ∨ (∃ i, Runs s i ∧ ExecEffect i s t) ∨
    (Continues s ∧ ∃ opc, t = retire (.unknown opc) .increment s) := by
  obtain ⟨hend, hs⟩ | ⟨i, hrun, hs⟩ | ⟨w, hc, -, -, hs⟩ := step_cases s <;> rw [hs] at h
  · cases h; exact .inl ⟨hend, rfl⟩
  · exact .inr (.inl ⟨i, hrun, exec_effect h⟩)
  · cases h; exact .inr (.inr ⟨hc, _, rfl⟩)

theorem step_of_not_continues (h : ¬ Continues s) : step s = .next s := by
  simp [step, fetch_eq_none_iff.mpr h, hold]

theorem step_of_runs (h : Runs s i) : step s = exec i s := by
  obtain ⟨hc, w, hw, hdec⟩ := h
  simp [step, fetch_of_continues hc, hw, hdec]

theorem ExecEffect.cfg_eq (h : ExecEffect i s t) : t.cfg = s.cfg := by cases h <;> simp

theorem ExecEffect.prog_eq (h : ExecEffect i s t) : t.prog = s.prog := by cases h <;> simp

/-- No step changes the configuration (R5). -/
theorem step_cfg (h : step s = .next t) : t.cfg = s.cfg := by
  obtain ⟨-, rfl⟩ | ⟨i, -, he⟩ | ⟨-, opc, rfl⟩ := step_next_cases h
  · rfl
  · exact he.cfg_eq
  · simp

/-- No step changes the program (R40). -/
theorem step_prog (h : step s = .next t) : t.prog = s.prog := by
  obtain ⟨-, rfl⟩ | ⟨i, -, he⟩ | ⟨-, opc, rfl⟩ := step_next_cases h
  · rfl
  · exact he.prog_eq
  · simp

end Sys2Proof.Machine
end

section
/-! PROOFS. The invariant of a run, one part at a time (spec: 10_state.md R15, R16; 60_exceptions.md R153). -/

namespace Sys2Proof.Machine

variable {i : Instr} {s t : State}

theorem ExecEffect.mem_wf (h : ExecEffect i s t) (hs : Memory.wf s.mem) : Memory.wf t.mem := by
  cases h with
  | writesCell _ v r => simpa using Memory.wf_write hs i.op2.isLt v
  | writesReg | jumps | fallsThrough | halts => simpa using hs

theorem step_mem_wf (h : step s = .next t) (hs : Memory.wf s.mem) : Memory.wf t.mem := by
  obtain ⟨-, rfl⟩ | ⟨i, -, he⟩ | ⟨-, opc, rfl⟩ := step_next_cases h
  · exact hs
  · exact he.mem_wf hs
  · simpa using hs

/-- Where an instruction leaves `pc` (R74, R75, R113). -/
theorem ExecEffect.pc_cases (h : ExecEffect i s t) : t.pc = s.pc ∨ t.pc = s.pc + 1 ∨ t.pc ≤ 7 := by
  cases h with
  | writesReg | writesCell | fallsThrough => exact .inr (.inl (by simp))
  | jumps =>
    have hlt := i.op2.isLt
    exact .inr (.inr (by simp; omega))
  | halts => exact .inl (by simp)

/-- No step takes `pc` past the end of the program or the highest jump target, whichever is further (R16). -/
theorem step_pc_le (h : step s = .next t) (hs : s.pc ≤ max s.prog.length 7) : t.pc ≤ max s.prog.length 7 := by
  obtain ⟨-, rfl⟩ | ⟨i, ⟨⟨-, hlt⟩, -⟩, he⟩ | ⟨⟨-, hlt⟩, opc, rfl⟩ := step_next_cases h
  · exact hs
  · have := he.pc_cases
    omega
  · simp only [retire_increment_pc]
    omega

/-- Only HLT changes `running`, and it leaves `pc` at its own index (R17, R75). -/
theorem ExecEffect.running_cases (h : ExecEffect i s t) :
    t.running = s.running ∨ i.operation = .hlt ∧ t.running = false ∧ t.pc = s.pc := by
  cases h with
  | writesReg | writesCell | jumps | fallsThrough => exact .inl (by simp)
  | halts hop => exact .inr ⟨hop, by simp, by simp⟩

/-- A machine that a step leaves halted stands at an index inside the program (R153). -/
theorem step_halted_pc_lt (h : step s = .next t) (hs : s.running = false → s.pc < s.prog.length)
    (ht : t.running = false) : t.pc < s.prog.length := by
  obtain ⟨-, rfl⟩ | ⟨i, ⟨⟨hrun, hlt⟩, -⟩, he⟩ | ⟨⟨hrun, -⟩, opc, rfl⟩ := step_next_cases h
  · exact hs ht
  · obtain hsame | ⟨-, -, hpc⟩ := he.running_cases
    · simp [hsame, hrun] at ht
    · rwa [hpc]
  · simp [hrun] at ht

/-- Settles O43: each part of the invariant is kept by a lemma of its own; the configuration and the program do
not change. -/
theorem everyStepKeepsTheInvariant : Obligations.EveryStepKeepsTheInvariant := by
  intro s t ⟨hmem, hcap, hfits, hpc, hhalt⟩ h
  rw [RunInv, step_cfg h, step_prog h]
  exact ⟨step_mem_wf h hmem, hcap, hfits, step_pc_le h hpc, step_halted_pc_lt h hhalt⟩

theorem max_capacity_lt_two_pow_iff (c : Config) (w : Nat) : max c.progCapacity 7 < 2 ^ w ↔ c.pcWidth ≤ w :=
  (Nat.log2_lt (by omega)).symm

/-- Settles O44: `PC_WIDTH` is the least width for the largest value, and the invariant bounds `pc` by that value. -/
theorem pcFitsItsWidth : Obligations.PcFitsItsWidth := by
  refine ⟨fun s ⟨_, _, hfits, hpc, _⟩ => ?_, max_capacity_lt_two_pow_iff, fun c hc => ?_⟩
  · have hmax := (max_capacity_lt_two_pow_iff s.cfg _).mpr le_rfl
    rw [Config.fits_iff] at hfits
    omega
  · rw [Config.pcWidth, hc]
    decide

end Sys2Proof.Machine
end

section
/-! PROOFS. Memories in canonical form as data (spec: 10_state.md R20; log entry 3). -/

namespace Sys2Proof.Machine

theorem Memory.read_of_forall_ne {m : Memory} {a : Nat} (h : ∀ c ∈ m, c.1 ≠ a) :
    Memory.read m a = Memory.unlisted := by
  induction m with
  | nil => rfl
  | cons c m ih =>
    have hc : a ≠ c.1 := (h c (by simp)).symm
    rw [Memory.read, if_neg hc, ih fun d hd => h d (by simp [hd])]

theorem Memory.read_of_mem {m : Memory} (h : m.Pairwise fun c d => c.1 < d.1) {c : Host.Cell} (hc : c ∈ m) :
    Memory.read m c.1 = c.2 := by
  induction m with
  | nil => cases hc
  | cons d m ih =>
    obtain ⟨hd, hm⟩ := List.pairwise_cons.mp h
    obtain rfl | hc := List.mem_cons.mp hc
    · simp [Memory.read]
    · rw [Memory.read, if_neg (hd c hc).ne', ih hm hc]

/-- The cells that a canonical memory lists are exactly those that do not read as an unlisted one. -/
theorem Memory.mem_iff_read {m : Memory} (h : Memory.wf m) (c : Host.Cell) :
    c ∈ m ↔ c.1 < 8 ∧ c.2 ≠ Memory.unlisted ∧ Memory.read m c.1 = c.2 := by
  obtain ⟨hsorted, hcells⟩ := h
  refine ⟨fun hc => ⟨(hcells c hc).1, (hcells c hc).2, Memory.read_of_mem hsorted hc⟩, fun ⟨_, hne, hread⟩ => ?_⟩
  obtain ⟨d, hd, hdc⟩ : ∃ d ∈ m, d.1 = c.1 := by
    by_contra hnone
    exact hne (hread ▸ Memory.read_of_forall_ne fun d hd hdc => hnone ⟨d, hd, hdc⟩)
  have hval : d.2 = c.2 := by rw [← Memory.read_of_mem hsorted hd, hdc, hread]
  rwa [← Prod.ext hdc hval]

/-- Settles O45: the two lists have the same members by `Memory.mem_iff_read`, and both are sorted by address. -/
theorem canonicalMemoriesThatReadAlikeAreEqual : Obligations.CanonicalMemoriesThatReadAlikeAreEqual := by
  intro m n hm hn hread
  have hirrefl : Std.Irrefl fun c d : Host.Cell => c.1 < d.1 := ⟨fun c => lt_irrefl c.1⟩
  have hasymm : Std.Asymm fun c d : Host.Cell => c.1 < d.1 := ⟨fun _ _ => lt_asymm⟩
  refine List.Pairwise.eq_of_mem_iff hm.1 hn.1 fun c => ?_
  rw [Memory.mem_iff_read hm, Memory.mem_iff_read hn]
  exact and_congr_right fun ha => by rw [hread c.1 ha]

end Sys2Proof.Machine
end

section
/-! PROOFS. What may write the registers, the data cells and `running` (spec: 10_state.md R12, R14, R17, R20, R27;
20_memory.md R30). -/

namespace Sys2Proof.Machine

variable {i : Instr} {s t : State}

theorem ExecEffect.writes_only_rd (h : ExecEffect i s t) {j : RegIdx} (hj : readReg j t ≠ readReg j s) :
    i.operation ∈ registerWriters ∧ j = rdOf i.op1 s := by
  cases h with
  | writesReg hop v d r =>
    refine ⟨hop, by_contra fun hne => hj ?_⟩
    rw [readReg_retire, readReg_writeReg_of_ne _ _ _ _ hne]
    rfl
  | writesCell | jumps | fallsThrough => simp at hj
  | halts => exact absurd (readReg_retire _ j _ _) hj

/-- Settles O33, by the effects of an instruction: one of them alone writes a register. -/
theorem registersAreWrittenOnlyThroughOperand1 : Obligations.RegistersAreWrittenOnlyThroughOperand1 := by
  intro s t j h hj
  obtain ⟨-, rfl⟩ | ⟨i, hrun, he⟩ | ⟨-, opc, rfl⟩ := step_next_cases h
  · exact absurd rfl hj
  · obtain ⟨hop, hrd⟩ := he.writes_only_rd hj
    exact ⟨i, hrun, hop, hrd⟩
  · simp at hj

theorem ExecEffect.writes_only_cell (h : ExecEffect i s t) {a : Nat} (ha : memRead a t ≠ memRead a s) :
    i.operation = .st ∧ a = i.op2.toNat := by
  cases h with
  | writesCell hop v r =>
    refine ⟨hop, by_contra fun hne => ha ?_⟩
    rw [memRead_retire, memRead_memWrite_of_ne _ _ _ _ hne]
  | writesReg => exact absurd (memRead_retire _ a _ _) ha
  | jumps | fallsThrough => simp at ha
  | halts => exact absurd (memRead_retire _ a _ _) ha

/-- Settles O34, by the effects of an instruction: one of them alone writes a cell. -/
theorem memoryIsWrittenOnlyBySt : Obligations.MemoryIsWrittenOnlyBySt := by
  intro s t a h ha
  obtain ⟨-, rfl⟩ | ⟨i, hrun, he⟩ | ⟨-, opc, rfl⟩ := step_next_cases h
  · exact absurd rfl ha
  · obtain ⟨hop, rfl⟩ := he.writes_only_cell ha
    exact ⟨i, hrun, hop, rfl, i.op2.isLt⟩
  · simp at ha

/-- The remapped policy resolves to R0 and R1 alone (R54). -/
theorem regmap_remapped_lt_two : ∀ op1, (regmap .remapped op1).val < 2 := by decide

/-- Under the remapped policy a step leaves every register from R2 up alone (R14). -/
theorem step_keeps_upper_register (hmap : s.cfg.regmap = .remapped) (h : step s = .next t) {j : RegIdx}
    (hj : 2 ≤ j.val) : readReg j t = readReg j s := by
  by_contra hne
  obtain ⟨i, -, -, rfl⟩ := registersAreWrittenOnlyThroughOperand1 s t j h hne
  rw [hmap] at hj
  have := regmap_remapped_lt_two i.op1
  omega

theorem runFor_keeps_upper_register {n : Nat} (hmap : s.cfg.regmap = .remapped) (h : runFor n s = .next t)
    {j : RegIdx} (hj : 2 ≤ j.val) : readReg j t = readReg j s := by
  refine (runFor_keeps (P := fun u => u.cfg.regmap = .remapped ∧ readReg j u = readReg j s) ?_ ⟨hmap, rfl⟩ h).2
  intro u v ⟨hu, hread⟩ hstep
  exact ⟨by rw [step_cfg hstep, hu], by rw [step_keeps_upper_register hu hstep hj, hread]⟩

/-- Settles O26: no step of a run writes a register that the remapped policy does not reach. -/
theorem remappedRunKeepsUpperRegisters : Obligations.RemappedRunKeepsUpperRegisters :=
  fun _ _ _ hmap h =>
    ⟨runFor_keeps_upper_register hmap h (by decide), runFor_keeps_upper_register hmap h (by decide)⟩

theorem launch_running {inp : Inputs} (h : launch inp = .next s) : s.running = true := by
  obtain ⟨-, -, hnext⟩ | ⟨-, hrefused⟩ := launch_cases inp
  · cases hnext.symm.trans h; rfl
  · cases hrefused.symm.trans h

/-- A step of HLT clears `running`. -/
theorem step_hlt_running (hrun : Runs s i) (hop : i.operation = .hlt) (h : step s = .next t) :
    t.running = false := by
  rw [step_of_runs hrun] at h
  cases exec_effect h with
  | halts => simp
  | writesReg hop' | writesCell hop' | jumps hop' | fallsThrough hop' => simp [hop] at hop'

/-- A step leaves `running` false exactly if it was false before or the step ran HLT (R17). -/
theorem step_running_eq_false_iff (h : step s = .next t) :
    t.running = false ↔ s.running = false ∨ ∃ i, Runs s i ∧ i.operation = .hlt := by
  constructor
  · intro ht
    obtain ⟨-, rfl⟩ | ⟨i, hrun, he⟩ | ⟨-, opc, rfl⟩ := step_next_cases h
    · exact .inl ht
    · obtain hsame | ⟨hop, -, -⟩ := he.running_cases
      · exact .inl (hsame ▸ ht)
      · exact .inr ⟨i, hrun, hop⟩
    · exact .inl (by simpa using ht)
  · rintro (hs | ⟨i, hrun, hop⟩)
    · rw [step_of_not_continues (by simp [hs])] at h
      cases h
      exact hs
    · exact step_hlt_running hrun hop h

/-- `running` is no data for `o`: from `s` with any other `running` it goes on to a state that differs in `running`
alone. -/
def IgnoresRunning (o : State → Host.Outcome State Fault Refusal) : Prop :=
  ∀ s t b, o s = .next t →
    ∃ u, o { s with running := b } = .next u ∧ { u with running := true } = { t with running := true }

theorem twoSource_ignoresRunning (f : Byte → Byte → Byte) (record : RegIdx → Op2 → Byte → TraceRecord)
    (op1 : Op1) (op2 : Op2) : IgnoresRunning (twoSource f record op1 op2) := by
  intro s t b h
  obtain ⟨c, d, hsrc, rfl⟩ := twoSource_next h
  exact ⟨_, twoSource_of_secondSource (s := { s with running := b }) f record op1 hsrc, rfl⟩

/-- No instruction reads `running` (R17). -/
theorem exec_ignoresRunning (i : Instr) : IgnoresRunning (exec i) := by
  cases i with
  | add op1 op2 => exact twoSource_ignoresRunning add8 .add op1 op2
  | sub op1 op2 => exact twoSource_ignoresRunning sub8 .sub op1 op2
  | and op1 op2 => exact twoSource_ignoresRunning and8 .and op1 op2
  | or op1 op2 => exact twoSource_ignoresRunning or8 .or op1 op2
  | mov | ld | st | jmp | hlt =>
    intro s t b h
    cases h
    exact ⟨_, rfl, rfl⟩
  | jz op1 op2 =>
    intro s t b h
    by_cases hz : readReg (rdOf op1 s) s = 0
    · rw [exec_jz_taken op1 op2 s hz] at h
      cases h
      exact ⟨_, exec_jz_taken op1 op2 { s with running := b } hz, rfl⟩
    · rw [exec_jz_not_taken op1 op2 s hz] at h
      cases h
      exact ⟨_, exec_jz_not_taken op1 op2 { s with running := b } hz, rfl⟩

/-- Under Profile B, which has no HLT, a step leaves `running` true (R17, R59). -/
theorem step_tableB_running (htab : s.cfg.optable = tableB) (hs : s.running = true) (h : step s = .next t) :
    t.running = true := by
  refine Bool.of_not_eq_false fun ht => ?_
  obtain hs' | ⟨i, ⟨-, w, -, hdec⟩, hop⟩ := (step_running_eq_false_iff h).mp ht
  · simp [hs] at hs'
  · rw [htab] at hdec
    exact tableB_lookup_ne_hlt (fieldOpc w) (hop ▸ lookup_of_decode hdec)

theorem runFor_tableB_running {n : Nat} (htab : s.cfg.optable = tableB) (hs : s.running = true)
    (h : runFor n s = .next t) : t.running = true := by
  refine (runFor_keeps (P := fun u => u.cfg.optable = tableB ∧ u.running = true) ?_ ⟨htab, hs⟩ h).2
  intro u v ⟨hu, hrun⟩ hstep
  exact ⟨by rw [step_cfg hstep, hu], step_tableB_running hu hrun hstep⟩

/-- Settles O35, clause by clause. -/
theorem runningIsClearedOnlyByHlt : Obligations.RunningIsClearedOnlyByHlt :=
  ⟨rfl, fun _ _ => launch_running, fun _ _ => step_running_eq_false_iff, exec_ignoresRunning,
    fun _ _ _ => runFor_tableB_running⟩

end Sys2Proof.Machine
end

section
/-! PROOFS. The program and the data cells (spec: 20_memory.md R31, R38, R40; 10_state.md R25). -/

namespace Sys2Proof.Machine

variable {s t : State}

/-- The inversion of a reset that is not refused. -/
theorem eq_launchState_of_launch {inp : Inputs} (h : launch inp = .next s) : s = launchState inp := by
  obtain ⟨-, -, hnext⟩ | ⟨-, hrefused⟩ := launch_cases inp
  · cases hnext.symm.trans h; rfl
  · cases hrefused.symm.trans h

theorem runFor_cfg_prog {n : Nat} (h : runFor n s = .next t) : t.cfg = s.cfg ∧ t.prog = s.prog := by
  refine runFor_keeps (P := fun u => u.cfg = s.cfg ∧ u.prog = s.prog) ?_ ⟨rfl, rfl⟩ h
  intro u v ⟨hcfg, hprog⟩ hstep
  exact ⟨by rw [step_cfg hstep, hcfg], by rw [step_prog hstep, hprog]⟩

/-- Settles O36: the state after a reset takes both from the inputs, and every step of a run keeps them. -/
theorem programAndConfigurationAreFixed : Obligations.ProgramAndConfigurationAreFixed := by
  refine ⟨fun inp s h => ?_, fun _ _ _ => runFor_cfg_prog⟩
  obtain rfl := eq_launchState_of_launch h
  exact ⟨rfl, rfl⟩

theorem Memory.read_ofBytes_of_lt (vs : List Byte) {base a : Nat} (h : a < base) :
    Memory.read (Memory.ofBytes base vs) a = Memory.unlisted :=
  Memory.read_of_forall_ne fun _ hc => (h.trans_le (Memory.lt_of_mem_ofBytes hc).1).ne'

/-- The memory made of a list of bytes holds the `i`-th byte at the `i`-th cell, listed or not (R25). -/
theorem Memory.read_ofBytes (vs : List Byte) (base i : Nat) (hi : i < vs.length) :
    Memory.read (Memory.ofBytes base vs) (base + i) = vs[i] := by
  induction vs generalizing base i with
  | nil => cases hi
  | cons v vs ih =>
    rw [Memory.ofBytes]
    cases i with
    | zero =>
      split
      · next hv => exact (Memory.read_ofBytes_of_lt vs (Nat.lt_succ_self base)).trans hv.symm
      · simp [Memory.read]
    | succ i =>
      have hi : i < vs.length := Nat.lt_of_succ_lt_succ hi
      have htail : Memory.read (Memory.ofBytes (base + 1) vs) (base + (i + 1)) = vs[i] := by
        rw [← ih (base + 1) i hi, Nat.add_right_comm, Nat.add_assoc]
      split
      · exact htail
      · simpa [Memory.read] using htail

/-- Right after a reset each cell holds its byte of `MEM_init` (R31). -/
theorem memRead_launchState (inp : Inputs) (a : Fin 8) : memRead a.val (launchState inp) = inp.initMem[a] := by
  have h := Memory.read_ofBytes inp.initMem.toList 0 a.val (by simp)
  simpa [memRead, launchState] using h

/-- Settles O46, by the laws of a read after a write and by the contents that a reset leaves. -/
theorem cellReadsAsItsLatestWrite : Obligations.CellReadsAsItsLatestWrite := by
  refine ⟨fun a v s _ => ?_, fun inp s h a => ?_⟩
  · exact ⟨memRead_memWrite_same s a v, fun b => memRead_memWrite_of_ne s a b v⟩
  · rw [eq_launchState_of_launch h]
    exact memRead_launchState inp a

theorem rdOf_eq_of_cfg_eq (h : t.cfg = s.cfg) (op1 : Op1) : rdOf op1 t = rdOf op1 s := by
  rw [rdOf, h, rdOf]

/-- After ST its cell reads as its register read before (R101). -/
theorem memRead_of_exec_st {op1 : Op1} {op2 : Op2} (h : exec (.st op1 op2) s = .next t) :
    memRead op2.toNat t = readReg (rdOf op1 s) s := by
  rw [exec_st] at h
  cases h
  simp

/-- After LD its register reads as its cell read before (R100). -/
theorem readReg_of_exec_ld {op1 : Op1} {op2 : Op2} (h : exec (.ld op1 op2) s = .next t) :
    readReg (rdOf op1 s) t = memRead op2.toNat s := by
  rw [exec_ld] at h
  cases h
  simp

/-- Settles O47: the cell carries the value from ST to LD, and ST leaves the register mapping as it was. -/
theorem loadAfterStoreSeesTheStore : Obligations.LoadAfterStoreSeesTheStore := by
  intro p q op2 s t u hst hld
  have hrd : rdOf q t = rdOf q s := rdOf_eq_of_cfg_eq (exec_effect hst).cfg_eq q
  calc readReg (rdOf q s) u = readReg (rdOf q t) u := by rw [hrd]
    _ = memRead op2.toNat t := readReg_of_exec_ld hld
    _ = readReg (rdOf p s) s := memRead_of_exec_st hst

end Sys2Proof.Machine
end

section
/-! PROOFS. The decoder and the encoder (spec: 30_encoding.md R50 to R52, R58 to R62). -/

namespace Sys2Proof

open Laws.Fields (fields_of_composeWord)

variable {t : OpTable} {i : Instr} {op : Operation} {k : Opc} {a : Op1} {b : Op2} {w : Byte}

theorem buildInstr_fields (i : Instr) : buildInstr i.operation i.op1 i.op2 = i := by cases i <;> rfl

theorem decode_of_lookup (h : t.lookup (fieldOpc w) = some op) :
    decode t w = .ok (buildInstr op (fieldOp1 w) (fieldOp2 w)) := by
  simp [decode, h]

/-- The word made of an opcode and two fields decodes to the operation at that opcode with those fields. -/
theorem decode_composeWord (h : t.lookup k = some op) (a : Op1) (b : Op2) :
    decode t (composeWord k a b) = .ok (buildInstr op a b) := by
  obtain ⟨hk, ha, hb⟩ := fields_of_composeWord k a b
  rw [decode_of_lookup (hk.symm ▸ h), ha, hb]

theorem lookup_of_opcodeOf (h : t.opcodeOf op = some k) : t.lookup k = some op := by
  simpa using List.find?_some h

theorem mem_allOpcodes : ∀ k : Opc, k ∈ allOpcodes := by decide

theorem exists_opcodeOf (h : t.lookup k = some op) : ∃ j, t.opcodeOf op = some j := by
  rw [← Option.isSome_iff_exists, OpTable.opcodeOf, List.find?_isSome]
  exact ⟨k, mem_allOpcodes k, by simpa using h⟩

/-- Well formed under a table: the table has the operation at some opcode (R60). -/
theorem Instr.wf_iff_lookup : i.wf t = true ↔ ∃ k, t.lookup k = some i.operation := by
  simp only [Instr.wf, List.contains_iff_mem, Vector.mem_toList_iff, Vector.mem_iff_getElem]
  constructor
  · rintro ⟨n, hn, h⟩
    exact ⟨BitVec.ofFin ⟨n, hn⟩, h⟩
  · rintro ⟨k, h⟩
    exact ⟨k.toNat, k.isLt, h⟩

/-- The encoder answers for a well-formed instruction, by an opcode at which the table has its operation. -/
theorem encode_of_wf (h : i.wf t = true) :
    ∃ k, t.lookup k = some i.operation ∧ encode t i = some (composeWord k i.op1 i.op2) := by
  obtain ⟨k, hk⟩ := Instr.wf_iff_lookup.mp h
  obtain ⟨j, hj⟩ := exists_opcodeOf hk
  exact ⟨j, lookup_of_opcodeOf hj, by simp [encode, hj]⟩

/-- Settles O4: the encoder composes its word from an opcode of the operation, and the decoder takes that word apart. -/
theorem decodeOfEncodeIsTheInstruction : Obligations.DecodeOfEncodeIsTheInstruction := by
  intro t i hwf
  obtain ⟨k, hk, henc⟩ := encode_of_wf hwf
  exact ⟨_, henc, by rw [decode_composeWord hk, buildInstr_fields]⟩

theorem wf_of_decode (h : decode t w = .ok i) : i.wf t = true :=
  Instr.wf_iff_lookup.mpr ⟨fieldOpc w, lookup_of_decode h⟩

theorem decode_ne_of_not_wf (h : i.wf t = false) (w : Byte) : decode t w ≠ .ok i :=
  fun hdec => by simp [wf_of_decode hdec] at h

/-- A word is given by its number, with the bit weights of R51 (92_eei_decisions.md D1). -/
theorem eq_composeWord_of_toNat (h : w.toNat = 32 * k.toNat + 8 * a.toNat + b.toNat) : w = composeWord k a b := by
  refine BitVec.eq_of_toNat_eq ?_
  have ha := a.isLt
  have hb := b.isLt
  rw [h, composeWord, BitVec.toNat_append, BitVec.toNat_append,
    ← Nat.shiftLeft_add_eq_or_of_lt hb, ← Nat.shiftLeft_add_eq_or_of_lt ha]
  simp only [Nat.shiftLeft_eq]
  omega

theorem decode_of_toNat (hk : t.lookup k = some op) (h : w.toNat = 32 * k.toNat + 8 * a.toNat + b.toNat) :
    decode t w = .ok (buildInstr op a b) :=
  eq_composeWord_of_toNat h ▸ decode_composeWord hk a b

/-- Neither profile leaves an opcode unassigned (R58, R59). -/
theorem profileTable_lookup_isSome (p : Profile) : ∀ k, ((profileTable p).lookup k).isSome := by
  cases p with
  | A => decide
  | B => decide

theorem decode_profileTable (p : Profile) (w : Byte) : ∃ i, decode (profileTable p) w = .ok i := by
  obtain ⟨op, hop⟩ := Option.isSome_iff_exists.mp (profileTable_lookup_isSome p (fieldOpc w))
  exact ⟨_, decode_of_lookup hop⟩

end Sys2Proof
end

section
/-! PROOFS. The second source, and how an instruction can end (spec: 30_encoding.md R55, R56; 60_exceptions.md R150,
R151). -/

namespace Sys2Proof.Machine

variable {i : Instr} {s t : State} {op2 : Op2} {b c : Byte} {d e : Nat}

theorem secondSource_iff_of_lt (h : op2.toNat < 4) : SecondSource s op2 b d ↔ b = s.x[op2.toNat] ∧ d = 0 := by
  have hnot : ¬ 4 ≤ op2.toNat := by omega
  simp [SecondSource, h, hnot, eq_comm]

/-- Register number 0..3 as second source: that register, and no free value taken (R55). -/
theorem secondSource_readReg {j : RegIdx} (h : op2.toNat = j.val) : SecondSource s op2 (readReg j s) 0 := by
  have hlt : op2.toNat < 4 := h ▸ j.isLt
  exact (secondSource_iff_of_lt hlt).mpr ⟨by simp [readReg, h], rfl⟩

theorem secondSource_unique (hb : SecondSource s op2 b d) (hc : SecondSource s op2 c e) : b = c ∧ d = e := by
  have h := (src2_of_secondSource hb).symm.trans (src2_of_secondSource hc)
  simpa using h

/-- The second source gives a byte unless its number is 4..7 under `fault` (R56). -/
theorem exists_secondSource_iff :
    (∃ b d, SecondSource s op2 b d) ↔ (4 ≤ op2.toNat → s.cfg.src2High ≠ .fault) := by
  cases h : src2 op2 s with
  | ok r =>
    obtain ⟨d, hd, -⟩ := src2_ok h
    refine iff_of_true ⟨r.1, d, hd⟩ fun hge hfault => ?_
    cases h.symm.trans (src2_error.mpr ⟨hge, hfault, rfl⟩)
  | error f =>
    obtain ⟨hge, hfault, -⟩ := src2_error.mp h
    refine iff_of_false ?_ fun hne => hne hge hfault
    rintro ⟨b, d, hd⟩
    cases h.symm.trans (src2_of_secondSource hd)

theorem twoSource_next_iff {f : Byte → Byte → Byte} {record : RegIdx → Op2 → Byte → TraceRecord} {op1 : Op1} :
    (∃ t, twoSource f record op1 op2 s = .next t) ↔ ∃ b d, SecondSource s op2 b d := by
  constructor
  · rintro ⟨t, h⟩
    obtain ⟨b, d, hd, -⟩ := twoSource_next h
    exact ⟨b, d, hd⟩
  · rintro ⟨b, d, hd⟩
    exact ⟨_, twoSource_of_secondSource f record op1 hd⟩

/-- `o` goes on from every state, takes no free value and reads none: from `s` with any other count of free values it
goes on to a state that differs in that count alone. -/
def NeedsNoFreeValue (o : State → Host.Outcome State Fault Refusal) : Prop :=
  ∀ s, ∃ t, o s = .next t ∧ t.draws = s.draws ∧ ∀ n, o { s with draws := n } = .next { t with draws := n }

theorem exec_jz_needsNoFreeValue (op1 : Op1) (op2 : Op2) : NeedsNoFreeValue (exec (.jz op1 op2)) := by
  intro s
  by_cases hz : readReg (rdOf op1 s) s = 0
  · exact ⟨_, exec_jz_taken op1 op2 s hz, rfl, fun n => exec_jz_taken op1 op2 { s with draws := n } hz⟩
  · exact ⟨_, exec_jz_not_taken op1 op2 s hz, rfl, fun n => exec_jz_not_taken op1 op2 { s with draws := n } hz⟩

/-- The two kinds of instruction: one that reads a second source is a `twoSource`, and any other goes on from every
state without a free value. -/
theorem exec_kinds (i : Instr) :
    (ReadsSecondSource i.operation ∧ ∃ f record, ∀ s, exec i s = twoSource f record i.op1 i.op2 s) ∨
    (¬ ReadsSecondSource i.operation ∧ NeedsNoFreeValue (exec i)) := by
  cases i with
  | add op1 op2 => exact .inl ⟨.inl rfl, _, _, exec_add op1 op2⟩
  | sub op1 op2 => exact .inl ⟨.inr (.inl rfl), _, _, exec_sub op1 op2⟩
  | and op1 op2 => exact .inl ⟨.inr (.inr (.inl rfl)), _, _, exec_and op1 op2⟩
  | or op1 op2 => exact .inl ⟨.inr (.inr (.inr rfl)), _, _, exec_or op1 op2⟩
  | mov | ld | st | jmp | hlt =>
    exact .inr ⟨by simp [ReadsSecondSource, Instr.operation], fun s => ⟨_, rfl, rfl, fun n => rfl⟩⟩
  | jz op1 op2 =>
    exact .inr ⟨by simp [ReadsSecondSource, Instr.operation], exec_jz_needsNoFreeValue op1 op2⟩

/-- Settles O20: of the two kinds of instruction, one never stops and the other stops as `twoSource` does. -/
theorem stopsExactlyUnderTheFaultSetting : Obligations.StopsExactlyUnderTheFaultSetting := by
  intro i s f
  obtain ⟨hreads, g, record, hexec⟩ | ⟨hnot, hfree⟩ := exec_kinds i
  · rw [hexec, twoSource_fault, and_iff_right hreads]
  · obtain ⟨t, ht, -⟩ := hfree s
    simp [ht, hnot]

theorem exec_not_refused (i : Instr) (s : State) (r : Refusal) : exec i s ≠ .refused r := by
  obtain ⟨-, f, record, hexec⟩ | ⟨-, hfree⟩ := exec_kinds i
  · rw [hexec]
    exact twoSource_not_refused
  · obtain ⟨t, ht, -⟩ := hfree s
    simp [ht]

/-- An instruction goes on unless it reads a source number 4..7 under `fault` (R150, R151). -/
theorem exec_completes (h : ReadsSecondSource i.operation → 4 ≤ i.op2.toNat → s.cfg.src2High ≠ .fault) :
    ∃ t, exec i s = .next t := by
  obtain ⟨hreads, f, record, hexec⟩ | ⟨-, hfree⟩ := exec_kinds i
  · rw [hexec, twoSource_next_iff, exists_secondSource_iff]
    exact h hreads
  · obtain ⟨t, ht, -⟩ := hfree s
    exact ⟨t, ht⟩

/-- Settles O21, by the two kinds of instruction. -/
theorem everyOtherInstructionCompletes : Obligations.EveryOtherInstructionCompletes :=
  fun i s => ⟨exec_not_refused i s, exec_completes⟩

theorem src2_ok_iff {s' : State} :
    src2 op2 s = .ok (b, s') ↔ ∃ d, SecondSource s op2 b d ∧ s' = { s with draws := s.draws + d } := by
  refine ⟨src2_ok, ?_⟩
  rintro ⟨d, hd, rfl⟩
  exact src2_of_secondSource hd

theorem exec_next_iff_secondSource (h : ReadsSecondSource i.operation) :
    (∃ t, exec i s = .next t) ↔ ∃ b d, SecondSource s i.op2 b d := by
  obtain ⟨-, f, record, hexec⟩ | ⟨hnot, -⟩ := exec_kinds i
  · rw [hexec, twoSource_next_iff]
  · exact absurd h hnot

/-- Settles O22, clause by clause. -/
theorem secondSourceIsReadAsTheSettingSays : Obligations.SecondSourceIsReadAsTheSettingSays := by
  intro s op2
  refine ⟨fun b s' => src2_ok_iff, ?_, fun hlt b d => secondSource_iff_of_lt hlt, fun hge => ?_,
    fun b c d e => secondSource_unique⟩
  · rintro i hreads rfl
    exact exec_next_iff_secondSource hreads
  · rw [exists_secondSource_iff, imp_iff_right hge]

/-- Outside 4..7 under `draw` the second source takes no free value and is the same whatever values are to come. -/
theorem secondSource_of_not_draw (hd : SecondSource s op2 b d)
    (h : 4 ≤ op2.toNat → s.cfg.src2High ≠ .draw) : d = 0 ∧ ∀ n, SecondSource { s with draws := n } op2 b 0 := by
  obtain ⟨hlt, hb, rfl⟩ | ⟨hge, hdraw, -, -⟩ | ⟨hge, htrunc, hb, rfl⟩ := hd
  · exact ⟨rfl, fun n => .inl ⟨hlt, hb, rfl⟩⟩
  · exact absurd hdraw (h hge)
  · exact ⟨rfl, fun n => .inr (.inr ⟨hge, htrunc, hb, rfl⟩)⟩

/-- Settles O23: an instruction needs no free value, or reads a second source that takes none. -/
theorem freeValuesReachOnlyHighSources : Obligations.FreeValuesReachOnlyHighSources := by
  intro i s n h t ht
  obtain ⟨hreads, f, record, hexec⟩ | ⟨-, hfree⟩ := exec_kinds i
  · rw [hexec] at ht ⊢
    obtain ⟨b, d, hd, rfl⟩ := twoSource_next ht
    obtain ⟨rfl, hsame⟩ := secondSource_of_not_draw hd (h hreads)
    exact ⟨by simp, twoSource_of_secondSource f record i.op1 (hsame n)⟩
  · obtain ⟨u, hu, hdraws, hsame⟩ := hfree s
    cases hu.symm.trans ht
    exact ⟨hdraws, hsame n⟩

/-- Every instruction that goes on emits one record (R77). -/
theorem ExecEffect.trace_eq (h : ExecEffect i s t) : ∃ r, t.trace = s.trace ++ [r] := by
  cases h with
  | writesReg _ _ _ r | writesCell _ _ r | jumps _ r | fallsThrough _ r => exact ⟨r, by simp⟩
  | halts => exact ⟨.hlt, by simp⟩

/-- Settles O3: the profiles assign every opcode, and a step runs an instruction that completes or UNKNOWN. -/
theorem everyWordIsLegal : Obligations.EveryWordIsLegal := by
  refine ⟨fun p w => ?_, fun s hc hset => ?_⟩
  · obtain ⟨i, hi⟩ := decode_profileTable p w
    exact ⟨i, hi, wf_of_decode hi⟩
  · obtain ⟨hend, -⟩ | ⟨i, -, hs⟩ | ⟨w, -, -, -, hs⟩ := step_cases s
    · exact absurd hc hend
    · obtain ⟨t, ht⟩ := exec_completes (i := i) (s := s) fun _ _ => hset
      obtain ⟨r, hr⟩ := (exec_effect ht).trace_eq
      exact ⟨t, r, hs.trans ht, hr⟩
    · exact ⟨_, .unknown (fieldOpc w), hs, by simp⟩

end Sys2Proof.Machine
end

section
/-! PROOFS. ADD, SUB, AND and OR (spec: 41_arith_move.md R90, R92; 44_bitwise.md R120, R121; 45_trace.md R131). -/

namespace Sys2Proof.Machine

variable {s : State} {op1 : Op1} {op2 : Op2} {b : Byte} {d : Nat}

/-- What the four operations share: the register of operand1 gets the result, the record shows it, and nothing else
but the count of free values moves. -/
theorem twoSource_result (f : Byte → Byte → Byte) (record : RegIdx → Op2 → Byte → TraceRecord) (op1 : Op1)
    (h : SecondSource s op2 b d) :
    ∃ t, twoSource f record op1 op2 s = .next t ∧ readReg (rdOf op1 s) t = f (readReg (rdOf op1 s) s) b ∧
      OnlyWrites s t (rdOf op1 s) (record (rdOf op1 s) op2 (readReg (rdOf op1 s) t)) ∧ t.draws = s.draws + d := by
  refine ⟨_, twoSource_of_secondSource f record op1 h, by simp, ⟨?_, ?_, by simp, by simp, by simp [Emits]⟩, by simp⟩
  · intro j hj
    rw [readReg_retire, readReg_writeReg_of_ne _ _ _ _ hj]
    rfl
  · intro a
    rw [memRead_retire, memRead_writeReg]
    rfl

/-- The shared template of the four records, with its literals joined (R131). -/
theorem twoSourceText_eq (op : String) (rd : RegIdx) (op2 : Op2) (r : Byte) :
    twoSourceText op rd op2 r = "R" ++ rd.val.repr ++ " = R" ++ rd.val.repr ++ (" " ++ op ++ " R") ++ op2.toNat.repr ++
      " = " ++ r.toNat.repr := by
  have heq : " = R" = " = " ++ "R" := rfl
  have hsp : " R" = " " ++ "R" := rfl
  simp only [twoSourceText, regText, decimal, heq, hsp, String.append_assoc]

theorem add8_toNat (a b : Byte) : (add8 a b).toNat = (a.toNat + b.toNat) % 256 := BitVec.toNat_add a b

theorem sub8_toNat (a b : Byte) : ((sub8 a b).toNat : Int) = (a.toNat - b.toNat : Int) % 256 := by
  have ha := a.isLt
  have hb := b.isLt
  rw [sub8, BitVec.toNat_sub]
  omega

theorem and8_getLsbD (a b : Byte) (n : Nat) : (and8 a b).getLsbD n = (a.getLsbD n && b.getLsbD n) :=
  BitVec.getLsbD_and

theorem or8_getLsbD (a b : Byte) (n : Nat) : (or8 a b).getLsbD n = (a.getLsbD n || b.getLsbD n) :=
  BitVec.getLsbD_or

/-- Settles O8, by `twoSource_result` for the sum. -/
theorem addResult : Obligations.AddResult := by
  intro op1 op2
  refine ⟨fun p w h => ?_, fun s b d hd => ?_⟩
  · have hk : (profileTable p).lookup 0 = some .add := by cases p <;> rfl
    exact decode_of_toNat hk h
  · obtain ⟨t, ht, hr, honly, hdraws⟩ := twoSource_result add8 .add op1 hd
    exact ⟨t, ht, by rw [hr, add8_toNat], honly, hdraws, twoSourceText_eq "+" _ _ _⟩

/-- Settles O10, by `twoSource_result` for the difference. -/
theorem subResult : Obligations.SubResult := by
  intro op1 op2
  refine ⟨fun p w h => ?_, fun s b d hd => ?_⟩
  · have hk : (profileTable p).lookup 2 = some .sub := by cases p <;> rfl
    exact decode_of_toNat hk h
  · obtain ⟨t, ht, hr, honly, hdraws⟩ := twoSource_result sub8 .sub op1 hd
    exact ⟨t, ht, by rw [hr, sub8_toNat], honly, hdraws, twoSourceText_eq "-" _ _ _⟩

/-- Settles O16, by `twoSource_result` for the bitwise product; Profile A has no AND. -/
theorem andResult : Obligations.AndResult := by
  intro op1 op2
  refine ⟨fun w h => ?_, decode_ne_of_not_wf rfl, fun s b d hd => ?_⟩
  · have hk : tableB.lookup 6 = some .and := rfl
    exact decode_of_toNat hk h
  · obtain ⟨t, ht, hr, honly, hdraws⟩ := twoSource_result and8 .and op1 hd
    exact ⟨t, ht, fun n _ => by rw [hr, and8_getLsbD], honly, hdraws, twoSourceText_eq "&" _ _ _⟩

/-- Settles O17, by `twoSource_result` for the bitwise sum; Profile A has no OR. -/
theorem orResult : Obligations.OrResult := by
  intro op1 op2
  refine ⟨fun w h => ?_, decode_ne_of_not_wf rfl, fun s b d hd => ?_⟩
  · have hk : tableB.lookup 7 = some .or := rfl
    exact decode_of_toNat hk h
  · obtain ⟨t, ht, hr, honly, hdraws⟩ := twoSource_result or8 .or op1 hd
    exact ⟨t, ht, fun n _ => by rw [hr, or8_getLsbD], honly, hdraws, twoSourceText_eq "|" _ _ _⟩

/-- An operation that gives back two equal operands leaves registers and cells as they are, with one register as both
sources. -/
theorem twoSource_idempotent {f : Byte → Byte → Byte} (hf : ∀ a, f a a = a)
    (record : RegIdx → Op2 → Byte → TraceRecord) (h : op2.toNat = (rdOf op1 s).val) :
    ∃ t, twoSource f record op1 op2 s = .next t ∧ KeepsRegisters s t ∧ KeepsMemory s t := by
  obtain ⟨t, ht, hr, ⟨hother, hmem, -⟩, -⟩ := twoSource_result f record op1 (secondSource_readReg h)
  refine ⟨t, ht, fun j => ?_, hmem⟩
  by_cases hj : j = rdOf op1 s
  · rw [hj, hr, hf]
  · exact hother j hj

/-- Settles O18: the second source is the register of operand1 itself, so both operands are one byte. -/
theorem oneRegisterAsBothSources : Obligations.OneRegisterAsBothSources := by
  intro op1 op2 s h
  have hsrc : SecondSource s op2 (readReg (rdOf op1 s) s) 0 := secondSource_readReg h
  obtain ⟨t, ht, hadd, -, -⟩ := twoSource_result add8 .add op1 hsrc
  obtain ⟨u, hu, hsub, -, -⟩ := twoSource_result sub8 .sub op1 hsrc
  exact ⟨⟨t, ht, by rw [hadd, add8_toNat, ← two_mul]⟩, ⟨u, hu, by rw [hsub, sub8, BitVec.sub_self]; rfl⟩,
    twoSource_idempotent (fun _ => BitVec.and_self) .and h, twoSource_idempotent (fun _ => BitVec.or_self) .or h⟩

end Sys2Proof.Machine
end

section
/-! PROOFS. The register-mapping policy and the ignored fields (spec: 30_encoding.md R53, R54, R61, R64, R66). -/

namespace Sys2Proof.Machine

variable {s : State} {w : Byte}

/-- Settles O24: the policy `identity` is the numbering of the raw field. -/
theorem identityPolicyIsTheRawField : Obligations.IdentityPolicyIsTheRawField :=
  ⟨⟨fun _ _ => BitVec.eq_of_toFin_eq, fun d => ⟨BitVec.ofFin d, rfl⟩⟩, fun _ => rfl⟩

theorem regmap_of_regCode {m : RegMap} {d : RegIdx} {c : Op1} (h : regCode m d = some c) : regmap m c = d := by
  cases m with
  | identity => cases h; rfl
  | remapped => revert d c; decide

/-- Settles O7: each code resolves by `regmap_of_regCode`; that R2 and R3 have none is a check of four registers
against four codes. -/
theorem assemblerCodesResolve : Obligations.AssemblerCodesResolve :=
  ⟨fun _ _ _ => regmap_of_regCode, fun _ => rfl, by decide, rfl⟩

theorem twoSource_congr {f : Byte → Byte → Byte} {record : RegIdx → Op2 → Byte → TraceRecord} {a c : Op1}
    (h : rdOf a s = rdOf c s) (b : Op2) : twoSource f record a b s = twoSource f record c b s := by
  simp only [twoSource, h]

/-- The meaning reads the raw operand1 field only through the register it resolves to. -/
theorem exec_buildInstr_congr {a c : Op1} (h : rdOf a s = rdOf c s) (op : Operation) (b : Op2) :
    exec (buildInstr op a b) s = exec (buildInstr op c b) s := by
  cases op with
  | add | sub | and | or => exact twoSource_congr h b
  | mov => simp only [buildInstr, exec_mov, h]
  | ld => simp only [buildInstr, exec_ld, h]
  | st => simp only [buildInstr, exec_st, h]
  | jz => simp only [buildInstr, exec, execJz, h]
  | jmp | hlt => rfl

/-- Settles O25: the codes that resolve to R0 are told apart by no meaning. -/
theorem remappedCodesFallBack : Obligations.RemappedCodesFallBack := by
  refine ⟨rfl, rfl, rfl, rfl, fun op b s hmap => ⟨?_, ?_⟩⟩
  · exact exec_buildInstr_congr (by rw [rdOf, rdOf, hmap]; rfl) op b
  · exact exec_buildInstr_congr (by rw [rdOf, rdOf, hmap]; rfl) op b

/-- `s` with the word `w` in its program where it fetches next. -/
abbrev withWordAtPc (s : State) (w : Byte) : State := { s with prog := s.prog.set s.pc w }

theorem fetch_withWordAtPc (h : Continues s) (w : Byte) : fetch (withWordAtPc s w) = some w := by
  obtain ⟨hrun, hlt⟩ := h
  have hc : Continues (withWordAtPc s w) := ⟨hrun, by simpa using hlt⟩
  rw [fetch_of_continues hc]
  simp [hlt]

theorem step_withWordAtPc {op : Operation} (h : Continues s) (hop : s.cfg.optable.lookup (fieldOpc w) = some op) :
    step (withWordAtPc s w) = exec (buildInstr op (fieldOp1 w) (fieldOp2 w)) (withWordAtPc s w) := by
  simp [step, fetch_withWordAtPc h, decode_of_lookup hop]

theorem step_withWordAtPc_unassigned (h : Continues s) (hop : s.cfg.optable.lookup (fieldOpc w) = none) :
    step (withWordAtPc s w) = .next (retire (.unknown (fieldOpc w)) .increment (withWordAtPc s w)) := by
  simp [step, fetch_withWordAtPc h, decode, hop, execRejected, execUnknown]

/-- Settles O27: the step with either word is known from what the operation reads, which is alike in both. -/
theorem ignoredFieldsChangeNothing : Obligations.IgnoredFieldsChangeNothing := by
  intro s v w t hc hopc hfields ht
  obtain ⟨hjmp, hop2⟩ | hhlt | hnone := hfields
  · rw [step_withWordAtPc hc hjmp, buildInstr, exec_jmp] at ht
    rw [step_withWordAtPc hc (hopc ▸ hjmp), buildInstr, exec_jmp, ← hop2]
    cases ht
    rfl
  · rw [step_withWordAtPc hc hhlt, buildInstr, exec_hlt] at ht
    rw [step_withWordAtPc hc (hopc ▸ hhlt), buildInstr, exec_hlt]
    cases ht
    rfl
  · rw [step_withWordAtPc_unassigned hc hnone] at ht
    rw [step_withWordAtPc_unassigned hc (hopc ▸ hnone), ← hopc]
    cases ht
    rfl

end Sys2Proof.Machine
end

section
/-! PROOFS. The step, the run and the phases of the control unit (spec: 40_control_unit.md R70 to R83). -/

namespace Sys2Proof.Machine

variable {i : Instr} {r : TraceRecord} {s t : State} {n : Nat}

/-- Settles O28: `step` fetches that word and dispatches the instruction it decodes to. -/
theorem stepRunsTheDecodedInstruction : Obligations.StepRunsTheDecodedInstruction :=
  fun _ w _ hrun hlt hw hdec => step_of_runs ⟨⟨hrun, hlt⟩, w, hw, hdec⟩

/-- A step that is taken emits one record, whatever it dispatches (R77). -/
theorem step_trace_of_continues (hc : Continues s) (h : step s = .next t) : ∃ r, t.trace = s.trace ++ [r] := by
  obtain ⟨hend, -⟩ | ⟨i, -, he⟩ | ⟨-, opc, rfl⟩ := step_next_cases h
  · exact absurd hc hend
  · exact he.trace_eq
  · exact ⟨.unknown opc, by simp⟩

theorem step_trace_of_not_continues (hend : ¬ Continues s) (h : step s = .next t) : t.trace = s.trace := by
  cases (step_of_not_continues hend).symm.trans h
  rfl

/-- Settles O29: a step that is taken makes the trace longer, so it never answers the same state. -/
theorem stepIsTakenExactlyWhileTheRunContinues : Obligations.StepIsTakenExactlyWhileTheRunContinues := by
  refine fun s => ⟨fun h hc => ?_, step_of_not_continues⟩
  obtain ⟨r, hr⟩ := step_trace_of_continues hc h
  simp at hr

/-! ### Runs of several steps -/

theorem runFor_succ_of_next (h : step s = .next t) (n : Nat) : runFor (n + 1) s = runFor n t := by
  rw [runFor, h]

/-- A run goes on for `n + 1` steps by a first step that goes on and a run of `n` steps from there. -/
theorem runFor_succ_next_iff : runFor (n + 1) s = .next t ↔ ∃ u, step s = .next u ∧ runFor n u = .next t := by
  cases h : step s <;> simp [runFor, h]

theorem runFor_of_not_continues (h : ¬ Continues s) (n : Nat) : runFor n s = .next s := by
  induction n with
  | zero => rfl
  | succ n ih => rw [runFor_succ_of_next (step_of_not_continues h), ih]

theorem stepsTaken_of_not_continues (h : ¬ Continues s) (n : Nat) : stepsTaken n s = 0 := by
  cases n with
  | zero => rfl
  | succ n => rw [stepsTaken, if_neg (canStep_iff.not.mpr h)]

theorem stepsTaken_succ_of_next (hc : Continues s) (h : step s = .next t) (n : Nat) :
    stepsTaken (n + 1) s = stepsTaken n t + 1 := by
  rw [stepsTaken, if_pos (canStep_iff.mpr hc), h]

/-- Settles O30: the host's run is `runFor`, and each of its steps holds the state. -/
theorem endedRunIsHeldForGood : Obligations.EndedRunIsHeldForGood :=
  fun n s h => (runFor_eq_core_run n s).symm.trans (runFor_of_not_continues h n)

/-- A run adds as many records to the trace as it takes steps (R77). -/
theorem runFor_trace (h : runFor n s = .next t) :
    ∃ rs, t.trace = s.trace ++ rs ∧ rs.length = stepsTaken n s := by
  induction n generalizing s with
  | zero =>
    cases h
    exact ⟨[], by simp, rfl⟩
  | succ n ih =>
    by_cases hc : Continues s
    · obtain ⟨u, hu, hrun⟩ := runFor_succ_next_iff.mp h
      obtain ⟨r, hr⟩ := step_trace_of_continues hc hu
      obtain ⟨rs, hrs, hlen⟩ := ih hrun
      exact ⟨r :: rs, by simp [hrs, hr], by simp [stepsTaken_succ_of_next hc hu, hlen]⟩
    · cases (runFor_of_not_continues hc _).symm.trans h
      exact ⟨[], by simp, (stepsTaken_of_not_continues hc _).symm⟩

/-- Settles O32: the trace of a reset is empty, and one step and a run extend it by the lemmas above. -/
theorem oneRecordPerStep : Obligations.OneRecordPerStep := by
  refine ⟨fun inp s h => ?_, fun s t h => ?_, fun _ _ _ => runFor_trace⟩
  · rw [eq_launchState_of_launch h]
    rfl
  · exact ⟨fun hc => step_trace_of_continues hc h, fun hend => step_trace_of_not_continues hend h⟩

/-! ### Phases -/

theorem phase_eq_run_iff : phase s = .run ↔ Continues s := by
  rw [phase, Continues]
  split_ifs <;> simp_all

theorem phase_eq_halted_iff : phase s = .halted ↔ s.running = false := by
  rw [phase]
  split_ifs <;> simp_all

theorem phase_eq_exhausted_iff : phase s = .exhausted ↔ s.running = true ∧ s.prog.length ≤ s.pc := by
  rw [phase]
  split_ifs <;> simp_all

/-- A step that is taken leads to HALTED exactly if it runs HLT (R83). -/
theorem step_halted_iff (hs : phase s = .run) (h : step s = .next t) :
    phase t = .halted ↔ ∃ i, Runs s i ∧ i.operation = .hlt := by
  obtain ⟨hrun, -⟩ := phase_eq_run_iff.mp hs
  rw [phase_eq_halted_iff, step_running_eq_false_iff h]
  simp [hrun]

/-- A step that is taken leads to EXHAUSTED exactly if it runs no HLT and leaves `pc` past the program (R83). -/
theorem step_exhausted_iff (hs : phase s = .run) (h : step s = .next t) :
    phase t = .exhausted ↔ (¬ ∃ i, Runs s i ∧ i.operation = .hlt) ∧ t.prog.length ≤ t.pc := by
  rw [phase_eq_exhausted_iff, ← step_halted_iff hs h, phase_eq_halted_iff, Bool.not_eq_false]

theorem step_phase_of_ne_run (hs : phase s ≠ .run) (h : step s = .next t) : phase t = phase s := by
  cases (step_of_not_continues (phase_eq_run_iff.not.mp hs)).symm.trans h
  rfl

/-- Settles O38: each phase by its condition, then the transitions from a held state and from RUN. -/
theorem phasesMoveAsTheControlUnitSays : Obligations.PhasesMoveAsTheControlUnitSays :=
  ⟨fun _ => ⟨phase_eq_run_iff, phase_eq_halted_iff, phase_eq_exhausted_iff⟩, fun _ _ h =>
    ⟨fun hs => step_phase_of_ne_run hs h, fun hs => step_halted_iff hs h, fun hs => step_exhausted_iff hs h⟩⟩

/-- Settles O31: with no word to fetch, the state that a reset leaves does not continue. -/
theorem emptyProgramDoesNothing : Obligations.EmptyProgramDoesNothing := by
  intro inp hprog hcap
  have hempty : (launchState inp).prog.length = 0 := by simp [launchState, hprog]
  have hend : ¬ Continues (launchState inp) := by simp [hempty]
  refine ⟨launchState inp, launch_of_fits ((Config.wf_iff _).mp hcap) (by simp [hprog]), rfl, ?_, fun n => ?_⟩
  · exact phase_eq_exhausted_iff.mpr ⟨rfl, by simp [hempty]⟩
  · exact ⟨runFor_of_not_continues hend n, stepsTaken_of_not_continues hend n⟩

/-! ### Jumps to their own index -/

/-- The next instruction `i` is a JMP, or a JZ that is taken, to its own index, and emits `r` (R81). -/
def JumpsToItself (s : State) (i : Instr) (r : TraceRecord) : Prop :=
  Runs s i ∧ i.op2.toNat = s.pc ∧
    (i.operation = .jmp ∧ r = .jmp i.op2 ∨
      i.operation = .jz ∧ readReg (rdOf i.op1 s) s = 0 ∧ r = .jzTaken (rdOf i.op1 s) i.op2)

/-- Such a step emits its record and changes nothing else. -/
theorem JumpsToItself.step_eq (h : JumpsToItself s i r) : step s = .next (emit r s) := by
  obtain ⟨hrun, hpc, hkind⟩ := h
  have hstay : retire r (.jumpTo i.op2.toNat) s = emit r s := by rw [hpc]; rfl
  rw [step_of_runs hrun, ← hstay, ← buildInstr_fields i]
  obtain ⟨hop, rfl⟩ | ⟨hop, hzero, rfl⟩ := hkind
  · rw [hop]
    exact exec_jmp i.op1 i.op2 s
  · rw [hop]
    exact exec_jz_taken i.op1 i.op2 s hzero

theorem JumpsToItself.continues (h : JumpsToItself s i r) : Continues s := h.1.1

/-- The condition does not read the trace, so the same jump comes next again. -/
theorem JumpsToItself.after_emit (h : JumpsToItself s i r) : JumpsToItself (emit r s) i r := h

/-- Any number of steps from a jump to its own index repeats its record and changes nothing else. -/
theorem JumpsToItself.runFor_eq (h : JumpsToItself s i r) (n : Nat) :
    runFor n s = .next { s with trace := s.trace ++ List.replicate n r } := by
  induction n generalizing s with
  | zero => simp [runFor]
  | succ n ih =>
    rw [runFor_succ_of_next h.step_eq, ih h.after_emit]
    simp [emit, List.replicate_succ]

theorem JumpsToItself.stepsTaken_eq (h : JumpsToItself s i r) (n : Nat) : stepsTaken n s = n := by
  induction n generalizing s with
  | zero => rfl
  | succ n ih => rw [stepsTaken_succ_of_next h.continues h.step_eq, ih h.after_emit]

/-- Settles O39: every step takes the same jump again, so all `n` of them are taken and repeat its record. -/
theorem selfJumpRunsForever : Obligations.SelfJumpRunsForever := by
  intro s i r hrun hpc hkind n
  have hjump : JumpsToItself s i r := ⟨hrun, hpc, hkind⟩
  exact ⟨hjump.runFor_eq n, hjump.stepsTaken_eq n⟩

end Sys2Proof.Machine
end

section
/-! PROOFS. MOV (spec: 41_arith_move.md R91; 45_trace.md R131), and what every write of one register leaves alone. -/

namespace Sys2Proof.Machine

/-- Writing one register, emitting a record and advancing `pc` does nothing else (R11, R75, R77). -/
theorem onlyWrites_retire_writeReg (s : State) (rd : RegIdx) (v : Byte) (r : TraceRecord) :
    OnlyWrites s (retire r .increment (writeReg rd v s)) rd r := by
  refine ⟨fun j hj => ?_, fun a => ?_, by simp, by simp, by simp [Emits]⟩
  · rw [readReg_retire, readReg_writeReg_of_ne _ _ _ _ hj]
  · rw [memRead_retire, memRead_writeReg]

/-- Settles O9: MOV writes its immediate to the register of operand1 and does nothing else. -/
theorem movResult : Obligations.MovResult := by
  intro op1 op2
  refine ⟨fun p w h => ?_, fun s => ?_⟩
  · have hk : (profileTable p).lookup 1 = some .mov := by cases p <;> rfl
    exact decode_of_toNat hk h
  · exact ⟨_, exec_mov op1 op2 s, by simp, onlyWrites_retire_writeReg s _ _ _, by simp, rfl⟩

end Sys2Proof.Machine
end

section
/-! PROOFS. LD and ST (spec: 42_load_store.md R100 to R102; 45_trace.md R131). -/

namespace Sys2Proof.Machine

/-- Settles O11: LD writes the cell's content to the register of operand1 and does nothing else. -/
theorem ldResult : Obligations.LdResult := by
  intro op1 op2
  refine ⟨fun p w h => ?_, fun s => ?_⟩
  · have hk : (profileTable p).lookup 3 = some .ld := by cases p <;> rfl
    exact decode_of_toNat hk h
  · have hld := exec_ld op1 op2 s
    exact ⟨_, hld, readReg_of_exec_ld hld, onlyWrites_retire_writeReg s _ _ _, by simp, rfl⟩

/-- The template of ST, with the literal before the register number joined (R131). -/
theorem recordText_st (op2 : Op2) (rd : RegIdx) (v : Byte) :
    recordText (.st op2 rd v) =
      "MEM[" ++ op2.toNat.repr ++ "] = R" ++ rd.val.repr ++ " = " ++ v.toNat.repr := by
  have hR : "] = R" = "] = " ++ "R" := rfl
  simp only [recordText, regText, decimal, hR, String.append_assoc]

/-- Settles O12: ST writes the register's content to the cell `op2` and does nothing else. -/
theorem stResult : Obligations.StResult := by
  intro op1 op2
  refine ⟨fun p w h => ?_, rfl, fun s => ?_⟩
  · have hk : (profileTable p).lookup 4 = some .st := by cases p <;> rfl
    exact decode_of_toNat hk h
  · have hst := exec_st op1 op2 s
    refine ⟨_, hst, fun a ha => ?_, fun j => ?_, by simp, by simp, by simp [Emits], by simp, recordText_st _ _ _⟩
    · obtain rfl : op2.toNat = a := ha
      refine ⟨memRead_of_exec_st hst, fun b hb => ?_⟩
      rw [memRead_retire, memRead_memWrite_of_ne _ _ _ _ hb]
    · rw [readReg_retire, readReg_memWrite]

end Sys2Proof.Machine
end

section
/-! PROOFS. JMP, JZ, and how a step moves `pc` (spec: 43_control_transfer.md R110, R111, R113; 45_trace.md R131). -/

namespace Sys2Proof.Machine

variable {s t : State}

theorem keepsRegisters_retire (r : TraceRecord) (p : PcPolicy) (s : State) : KeepsRegisters s (retire r p s) :=
  fun j => readReg_retire s j r p

theorem keepsMemory_retire (r : TraceRecord) (p : PcPolicy) (s : State) : KeepsMemory s (retire r p s) :=
  fun a => memRead_retire s a r p

theorem emits_retire (r : TraceRecord) (p : PcPolicy) (s : State) : Emits s (retire r p s) r :=
  ⟨retire_trace s r p, retire_cfg s r p, retire_prog s r p⟩

/-- Settles O13: JMP is a `retire` to its target, and `retire` leaves all but `pc` and the trace alone. -/
theorem jmpResult : Obligations.JmpResult := by
  intro op1 op2
  refine ⟨fun p w h => ?_, fun s => ?_⟩
  · have hk : (profileTable p).lookup 5 = some .jmp := by cases p <;> rfl
    exact decode_of_toNat hk h
  · exact ⟨_, exec_jmp op1 op2 s, retire_jumpTo_pc .., keepsRegisters_retire _ _ s, keepsMemory_retire _ _ s,
      retire_running .., emits_retire _ _ s, retire_draws .., rfl⟩

/-- The two answers of JZ, told apart by the number in the register tested (R111). -/
theorem exec_jz_cases (op1 : Op1) (op2 : Op2) (s : State) :
    ((readReg (rdOf op1 s) s).toNat = 0 ∧
      exec (.jz op1 op2) s = .next (retire (.jzTaken (rdOf op1 s) op2) (.jumpTo op2.toNat) s)) ∨
    ((readReg (rdOf op1 s) s).toNat ≠ 0 ∧
      exec (.jz op1 op2) s = .next (retire (.jzNotTaken (rdOf op1 s)) .increment s)) := by
  by_cases hz : readReg (rdOf op1 s) s = 0
  · exact .inl ⟨by simp [hz], exec_jz_taken op1 op2 s hz⟩
  · exact .inr ⟨fun h => hz (BitVec.eq_of_toNat_eq h), exec_jz_not_taken op1 op2 s hz⟩

/-- The literal that opens both templates of JZ, joined with the `R` of the register's name (R131). -/
theorem jzText_register (n : Nat) : "JZ: " ++ regText n = "JZ: R" ++ n.repr := by
  have hR : "JZ: R" = "JZ: " ++ "R" := rfl
  rw [regText, decimal, hR, String.append_assoc]

theorem recordText_jzTaken (rd : RegIdx) (op2 : Op2) :
    recordText (.jzTaken rd op2) = "JZ: R" ++ rd.val.repr ++ " == 0, jump to " ++ op2.toNat.repr := by
  rw [recordText, jzText_register, decimal]

theorem recordText_jzNotTaken (rd : RegIdx) :
    recordText (.jzNotTaken rd) = "JZ: R" ++ rd.val.repr ++ " != 0, no jump" := by
  rw [recordText, jzText_register]

/-- Settles O14: each answer of JZ is a `retire` of the state, so that they differ in `pc` and the record alone;
Profile B has no JZ. -/
theorem jzResult : Obligations.JzResult := by
  intro op1 op2
  refine ⟨fun w h => ?_, decode_ne_of_not_wf rfl, fun s => ?_⟩
  · have hk : tableA.lookup 6 = some .jz := rfl
    exact decode_of_toNat hk h
  · have htexts := And.intro (recordText_jzTaken (rdOf op1 s) op2) (recordText_jzNotTaken (rdOf op1 s))
    obtain ⟨hzero, hexec⟩ | ⟨hnonzero, hexec⟩ := exec_jz_cases op1 op2 s
    · exact ⟨_, hexec, fun _ => ⟨retire_jumpTo_pc .., emits_retire _ _ s⟩, fun hne => absurd hzero hne,
        keepsRegisters_retire _ _ s, keepsMemory_retire _ _ s, retire_running .., retire_draws .., htexts⟩
    · exact ⟨_, hexec, fun h => absurd h hnonzero, fun _ => ⟨retire_increment_pc .., emits_retire _ _ s⟩,
        keepsRegisters_retire _ _ s, keepsMemory_retire _ _ s, retire_running .., retire_draws .., htexts⟩

/-- Where a step leaves `pc`: in place, one further, or at a jump target, which has three bits (R70, R110, R111). -/
theorem step_pc_cases (h : step s = .next t) : t.pc = s.pc ∨ t.pc = s.pc + 1 ∨ t.pc ≤ 7 := by
  obtain ⟨-, rfl⟩ | ⟨i, -, he⟩ | ⟨-, opc, rfl⟩ := step_next_cases h
  · exact .inl rfl
  · exact he.pc_cases
  · exact .inr (.inl (retire_increment_pc ..))

/-- Settles O37: of the three places where a step leaves `pc`, a jump target is never above 7. -/
theorem highIndicesAreReachedBySequenceOnly : Obligations.HighIndicesAreReachedBySequenceOnly := by
  intro s t h hhigh
  obtain hstay | hnext | hlow := step_pc_cases h
  · exact .inl hstay
  · exact .inr hnext
  · omega

end Sys2Proof.Machine
end

section
/-! PROOFS. The trace as an output: no step reads it (spec: 45_trace.md R130, R137). -/

namespace Sys2Proof.Machine

variable {s t : State}

/-- The trace is no data for `o`: from `s` with any other trace it goes on to the same state, with the same records
appended to that trace. -/
def OnlyAppendsToTrace (o : State → Host.Outcome State Fault Refusal) : Prop :=
  ∀ s t tr, o s = .next t →
    ∃ rs, t.trace = s.trace ++ rs ∧ o { s with trace := tr } = .next { t with trace := tr ++ rs }

theorem twoSource_onlyAppendsToTrace (f : Byte → Byte → Byte) (record : RegIdx → Op2 → Byte → TraceRecord)
    (op1 : Op1) (op2 : Op2) : OnlyAppendsToTrace (twoSource f record op1 op2) := by
  intro s t tr h
  obtain ⟨b, d, hsrc, rfl⟩ := twoSource_next h
  exact ⟨[_], rfl, twoSource_of_secondSource (s := { s with trace := tr }) f record op1 hsrc⟩

theorem exec_jz_onlyAppendsToTrace (op1 : Op1) (op2 : Op2) : OnlyAppendsToTrace (exec (.jz op1 op2)) := by
  intro s t tr h
  by_cases hz : readReg (rdOf op1 s) s = 0
  · cases (exec_jz_taken op1 op2 s hz).symm.trans h
    exact ⟨[_], rfl, exec_jz_taken op1 op2 { s with trace := tr } hz⟩
  · cases (exec_jz_not_taken op1 op2 s hz).symm.trans h
    exact ⟨[_], rfl, exec_jz_not_taken op1 op2 { s with trace := tr } hz⟩

/-- No instruction reads the trace (R137). -/
theorem exec_onlyAppendsToTrace (i : Instr) : OnlyAppendsToTrace (exec i) := by
  cases i with
  | add op1 op2 => exact twoSource_onlyAppendsToTrace add8 .add op1 op2
  | sub op1 op2 => exact twoSource_onlyAppendsToTrace sub8 .sub op1 op2
  | and op1 op2 => exact twoSource_onlyAppendsToTrace and8 .and op1 op2
  | or op1 op2 => exact twoSource_onlyAppendsToTrace or8 .or op1 op2
  | jz op1 op2 => exact exec_jz_onlyAppendsToTrace op1 op2
  | mov | ld | st | jmp | hlt =>
    intro s t tr h
    cases h
    exact ⟨[_], rfl, rfl⟩

theorem step_of_unassigned {w : Byte} (hc : Continues s) (hw : s.prog[s.pc]? = some w)
    (hop : s.cfg.optable.lookup (fieldOpc w) = none) :
    step s = .next (retire (.unknown (fieldOpc w)) .increment s) := by
  simp [step, fetch_of_continues hc, hw, decode, hop, execRejected, execUnknown]

/-- No step reads the trace: whether it goes on, and the word it fetches, do not depend on it (R70, R71, R137). -/
theorem step_onlyAppendsToTrace : OnlyAppendsToTrace step := by
  intro s t tr h
  obtain ⟨hend, hs⟩ | ⟨i, hrun, hs⟩ | ⟨w, hc, hw, hop, hs⟩ := step_cases s
  · cases hs.symm.trans h
    exact ⟨[], by simp, by simpa using step_of_not_continues (s := { s with trace := tr }) hend⟩
  · obtain ⟨rs, hrs, hexec⟩ := exec_onlyAppendsToTrace i s t tr (hs.symm.trans h)
    exact ⟨rs, hrs, (step_of_runs (s := { s with trace := tr }) hrun).trans hexec⟩
  · cases hs.symm.trans h
    exact ⟨[_], rfl, step_of_unassigned (s := { s with trace := tr }) hc hw hop⟩

/-- Settles O48, by induction on the number of steps: each appends its records to either trace. -/
theorem traceNeverInfluencesExecution : Obligations.TraceNeverInfluencesExecution := by
  intro n
  induction n with
  | zero =>
    intro s t tr h
    cases h
    exact ⟨[], by simp, by simp [runFor]⟩
  | succ n ih =>
    intro s t tr h
    obtain ⟨u, hu, hrun⟩ := runFor_succ_next_iff.mp h
    obtain ⟨rs, hrs, hstep⟩ := step_onlyAppendsToTrace s u tr hu
    obtain ⟨qs, hqs, hrest⟩ := ih u t (tr ++ rs) hrun
    refine ⟨rs ++ qs, by rw [hqs, hrs, List.append_assoc], ?_⟩
    rw [runFor_succ_of_next hstep, hrest, List.append_assoc]

end Sys2Proof.Machine
end

section
/-! PROOFS. Numerals (spec: 45_trace.md R135; 92_eei_decisions.md D9). -/

namespace Sys2Proof.Machine

/-- The digits of a numeral are those of its number in base ten. -/
theorem decimal_toList (n : Nat) : (decimal n).toList = Nat.toDigits 10 n := by
  simp [decimal, Nat.repr]

theorem isDigit_of_mem_decimal {n : Nat} {c : Char} (h : c ∈ (decimal n).toList) : c.isDigit = true := by
  rw [decimal_toList] at h
  exact Nat.isDigit_of_mem_toDigits (by decide) (by decide) h

theorem ofDigitChars_decimal (n : Nat) : Nat.ofDigitChars 10 (decimal n).toList 0 = n := by
  rw [decimal_toList, Nat.ofDigitChars_ten_toDigits]

/-- A numeral that begins with 0 is that of 0: without its last digit a longer one would still begin with 0. -/
theorem eq_zero_of_decimal_head? (n : Nat) (h : (decimal n).toList.head? = some '0') : n = 0 := by
  rw [decimal_toList] at h
  induction n using Nat.strongRec with
  | ind n ih =>
    rw [Nat.toDigits_eq_if (by decide)] at h
    split at h
    · simpa using h
    · next hge =>
      rw [List.head?_append_of_ne_nil _ Nat.toDigits_ne_nil] at h
      have := ih (n / 10) (by omega) h
      omega

/-- Settles O49: digits, value and first digit by the lemmas above, which hold of the numeral of every number. -/
theorem numeralsAreDecimalWithoutPadding : Obligations.NumeralsAreDecimalWithoutPadding := by
  refine fun b => ⟨fun c => isDigit_of_mem_decimal, ?_, fun h => ?_⟩
  · rw [← Nat.ofDigitChars_eq_foldl, ofDigitChars_decimal]
  · exact BitVec.eq_of_toNat_eq (eq_zero_of_decimal_head? _ h)

end Sys2Proof.Machine
end

section
/-! PROOFS. Reading a record back from its text (spec: 45_trace.md R131, R136; 92_eei_decisions.md D9 to D11). -/

namespace Sys2Proof.Machine

/-! ### The two parts of a text: its literals and its numerals -/

/-- A text with its digits left out. -/
def literals (text : String) : String := .ofList (text.toList.filter fun c => !c.isDigit)

/-- The numbers of the numerals of a text, first to last: the pieces between the characters that are no digits. -/
def numerals (text : String) : List Nat :=
  ((text.toList.splitOnP fun c => !c.isDigit).filter (· ≠ [])).map fun ds => Nat.ofDigitChars 10 ds 0

theorem literals_append (a b : String) : literals (a ++ b) = literals a ++ literals b := by
  simp [literals]

theorem literals_decimal (n : Nat) : literals (decimal n) = "" := by
  have hnone : (decimal n).toList.filter (fun c => !c.isDigit) = [] :=
    List.filter_eq_nil_iff.mpr fun c hc => by simp [isDigit_of_mem_decimal hc]
  simp [literals, hnone]

/-- A character that is no digit is in a text exactly if it is in its literals. -/
theorem mem_literals_iff {c : Char} (h : c.isDigit = false) (text : String) :
    c ∈ (literals text).toList ↔ c ∈ text.toList := by
  simp [literals, h]

theorem numerals_decimal (n : Nat) : numerals (decimal n) = [n] := by
  have hne : (decimal n).toList ≠ [] := by simp [decimal_toList, Nat.toDigits_ne_nil]
  have hsplit : (decimal n).toList.splitOnP (fun c => !c.isDigit) = [(decimal n).toList] :=
    List.splitOnP_eq_singleton fun c hc => by simp [isDigit_of_mem_decimal hc]
  simp [numerals, hsplit, hne, ofDigitChars_decimal]

/-- A character that is no digit separates the numerals on its two sides. -/
theorem numerals_of_toList_eq {text a b : String} {c : Char} (hc : c.isDigit = false)
    (h : text.toList = a.toList ++ c :: b.toList) : numerals text = numerals a ++ numerals b := by
  simp [numerals, h, List.splitOnP_append_cons, hc]

/-- No numeral runs into a text that begins with a character that is no digit. -/
theorem numerals_append_of_head {b : String} (h : b.toList.head?.any (fun c => !c.isDigit) = true) (a : String) :
    numerals (a ++ b) = numerals a ++ numerals b := by
  obtain ⟨c, hhead, hc⟩ := (Option.any_eq_true ..).mp h
  obtain ⟨cs, hb⟩ := List.head?_eq_some_iff.mp hhead
  have hc : c.isDigit = false := by simpa using hc
  have hrest : numerals b = numerals (.ofList cs) := numerals_of_toList_eq (a := "") hc (by simp [hb])
  rw [hrest]
  exact numerals_of_toList_eq hc (by simp [hb])

/-- No numeral runs out of a text that ends with a character that is no digit. -/
theorem numerals_append_of_getLast {a : String} (h : a.toList.getLast?.any (fun c => !c.isDigit) = true) (b : String) :
    numerals (a ++ b) = numerals a ++ numerals b := by
  obtain ⟨c, hlast, hc⟩ := (Option.any_eq_true ..).mp h
  obtain ⟨cs, ha⟩ := List.getLast?_eq_some_iff.mp hlast
  have hc : c.isDigit = false := by simpa using hc
  have hrest : numerals a = numerals (.ofList cs) ++ numerals "" := numerals_of_toList_eq hc (by simp [ha])
  have hempty : numerals "" = [] := rfl
  rw [hrest, hempty, List.append_nil]
  exact numerals_of_toList_eq hc (by simp [ha])

theorem numerals_append_append_of_getLast {b : String} (h : b.toList.getLast?.any (fun c => !c.isDigit) = true)
    (a c : String) : numerals (a ++ b ++ c) = numerals (a ++ b) ++ numerals c := by
  refine numerals_append_of_getLast ?_ c
  rw [String.toList_append, List.getLast?_append]
  cases hb : b.toList.getLast? with
  | none => simp [hb] at h
  | some d => simpa [hb] using h

/-! ### The parts of a record's text -/

/-- The literals of a record's text, which tell the kinds apart (R131). -/
def recordLiterals : TraceRecord → String
  | .add .. => "R = R + R = "
  | .mov .. => "R = "
  | .sub .. => "R = R - R = "
  | .ld .. => "R = MEM[] = "
  | .st .. => "MEM[] = R = "
  | .jmp .. => "JMP to "
  | .jzTaken .. => "JZ: R == , jump to "
  | .jzNotTaken .. => "JZ: R != , no jump"
  | .hlt => "HLT: Halting"
  | .and .. => "R = R & R = "
  | .or .. => "R = R | R = "
  | .unknown .. => "Unknown opcode: "

/-- The numbers printed in a record's text, first to last: its fields, a register that is printed twice, and the zero
of JZ's test (R131 to R134). -/
def recordNumerals : TraceRecord → List Nat
  | .add rd op2 r | .sub rd op2 r | .and rd op2 r | .or rd op2 r => [rd.val, rd.val, op2.toNat, r.toNat]
  | .mov rd op2 => [rd.val, op2.toNat]
  | .ld rd op2 v => [rd.val, op2.toNat, v.toNat]
  | .st op2 rd v => [op2.toNat, rd.val, v.toNat]
  | .jmp op2 => [op2.toNat]
  | .jzTaken rd op2 => [rd.val, 0, op2.toNat]
  | .jzNotTaken rd => [rd.val, 0]
  | .hlt => []
  | .unknown opc => [opc.toNat]

theorem literals_recordText (r : TraceRecord) : literals (recordText r) = recordLiterals r := by
  cases r with
  | add | mov | sub | ld | st | jmp | jzTaken | jzNotTaken | hlt | and | or | unknown =>
    simp only [recordText, twoSourceText, regText, literals_append, literals_decimal]
    rfl

theorem numerals_recordText (r : TraceRecord) : numerals (recordText r) = recordNumerals r := by
  cases r with
  | add | mov | sub | ld | st | jmp | jzTaken | jzNotTaken | hlt | and | or | unknown =>
    simp (disch := decide) only [recordText, twoSourceText, regText, ← String.append_assoc,
      numerals_append_append_of_getLast, numerals_append_of_getLast, numerals_append_of_head, numerals_decimal]
    rfl

/-- The record with the literals and the numbers given. -/
def recordOfParts (lits : String) (ns : List Nat) : Option TraceRecord :=
  match lits, ns with
  | "R = R + R = ", [rd, _, op2, r] => some (.add (.ofNat 4 rd) (.ofNat 3 op2) (.ofNat 8 r))
  | "R = ", [rd, op2] => some (.mov (.ofNat 4 rd) (.ofNat 3 op2))
  | "R = R - R = ", [rd, _, op2, r] => some (.sub (.ofNat 4 rd) (.ofNat 3 op2) (.ofNat 8 r))
  | "R = MEM[] = ", [rd, op2, v] => some (.ld (.ofNat 4 rd) (.ofNat 3 op2) (.ofNat 8 v))
  | "MEM[] = R = ", [op2, rd, v] => some (.st (.ofNat 3 op2) (.ofNat 4 rd) (.ofNat 8 v))
  | "JMP to ", [op2] => some (.jmp (.ofNat 3 op2))
  | "JZ: R == , jump to ", [rd, _, op2] => some (.jzTaken (.ofNat 4 rd) (.ofNat 3 op2))
  | "JZ: R != , no jump", [rd, _] => some (.jzNotTaken (.ofNat 4 rd))
  | "HLT: Halting", [] => some .hlt
  | "R = R & R = ", [rd, _, op2, r] => some (.and (.ofNat 4 rd) (.ofNat 3 op2) (.ofNat 8 r))
  | "R = R | R = ", [rd, _, op2, r] => some (.or (.ofNat 4 rd) (.ofNat 3 op2) (.ofNat 8 r))
  | "Unknown opcode: ", [opc] => some (.unknown (.ofNat 3 opc))
  | _, _ => none

theorem recordOfParts_parts (r : TraceRecord) : recordOfParts (recordLiterals r) (recordNumerals r) = some r := by
  cases r with
  | add | mov | sub | ld | st | jmp | jzTaken | jzNotTaken | hlt | and | or | unknown =>
    simp [recordLiterals, recordNumerals, recordOfParts]

/-- R136 for one record: it is read back from the parts of its text. -/
theorem recordText_injective : Function.Injective recordText := by
  intro r q h
  have hlits : recordLiterals r = recordLiterals q := by rw [← literals_recordText, h, literals_recordText]
  have hnums : recordNumerals r = recordNumerals q := by rw [← numerals_recordText, h, numerals_recordText]
  refine Option.some_injective _ ?_
  rw [← recordOfParts_parts r, hlits, hnums, recordOfParts_parts q]

/-! ### The text of a trace -/

/-- The text of a record is one line (R135): no literal has a line feed in it. -/
theorem lineFeed_notMem_recordText (r : TraceRecord) : '\n' ∉ (recordText r).toList := by
  rw [← mem_literals_iff rfl, literals_recordText]
  cases r with
  | add | mov | sub | ld | st | jmp | jzTaken | jzNotTaken | hlt | and | or | unknown =>
    rw [recordLiterals]
    decide

/-- Split at its line feeds, the text of a trace is the texts of its records, and nothing after the last line feed. -/
theorem splitOn_traceText (tr : List TraceRecord) :
    (traceText tr).toList.splitOn '\n' = tr.map (fun r => (recordText r).toList) ++ [[]] := by
  induction tr with
  | nil => rfl
  | cons r rs ih =>
    have hline : ∀ c ∈ (recordText r).toList, (c == '\n') = false := fun c hc =>
      beq_false_of_ne fun heq => lineFeed_notMem_recordText r (heq ▸ hc)
    have hcons : (traceText (r :: rs)).toList = (recordText r).toList ++ '\n' :: (traceText rs).toList := by
      simp [traceText]
    rw [List.splitOn_eq_splitOnP] at ih ⊢
    rw [hcons, List.splitOnP_append_cons_of_forall_mem hline _ rfl, ih]
    rfl

/-- Settles O50: the line feeds cut the text into the texts of the records, each of which has its record. -/
theorem traceTextDeterminesTheTrace : Obligations.TraceTextDeterminesTheTrace := by
  intro tr ur h
  have hlines : tr.map (fun r => (recordText r).toList) = ur.map (fun r => (recordText r).toList) := by
    refine List.append_cancel_right (bs := [[]]) ?_
    rw [← splitOn_traceText, h, splitOn_traceText]
  have hinj : Function.Injective fun r => (recordText r).toList := fun _ _ heq =>
    recordText_injective (String.toList_inj.mp heq)
  exact hinj.list_map hlines

end Sys2Proof.Machine
end

section
/-! PROOFS. What a reset leaves (spec: 70_reset_and_hazards.md R170; 10_state.md R24 to R26). -/

namespace Sys2Proof.Machine

/-- Right after a reset the output `state` shows `R_init` and `MEM_init`, `pc` 0 and `running` (R84, R170). -/
theorem observe_launchState (inp : Inputs) :
    observe (launchState inp) = { regs := inp.initRegs, cells := inp.initMem, pc := 0, running := true } := by
  have hcells : (Vector.ofFn fun a : Fin 8 => memRead a.val (launchState inp)) = inp.initMem := by
    ext a ha
    rw [Vector.getElem_ofFn, memRead_launchState]
    rfl
  rw [observe, hcells]
  rfl

/-- A reset leaves `pc` at 0 with the run going on, so it is in RUN exactly if there is a word at index 0 (R83). -/
theorem phase_launchState_eq_run_iff (inp : Inputs) : phase (launchState inp) = .run ↔ 0 < inp.prog.length :=
  phase_eq_run_iff.trans (and_iff_right rfl)

/-- Settles O40, by the observation, the cells and the phase of the state that a reset leaves. -/
theorem resetLeavesItsInputs : Obligations.ResetLeavesItsInputs := fun inp hcap hfits =>
  ⟨launchState inp, launch_of_fits ((Config.wf_iff _).mp hcap) hfits, observe_launchState inp, fun _ => rfl,
    memRead_launchState inp, rfl, rfl, rfl, rfl, phase_launchState_eq_run_iff inp⟩

end Sys2Proof.Machine
end

section
/-! PROOFS. The fields of a word, and the encoder as the inverse of the decoder (spec: 30_encoding.md R50 to R52, R58
to R62). -/

namespace Sys2Proof

open Laws.Fields (word_of_fields)

variable {t : OpTable} {i : Instr} {op : Operation} {j k : Opc} {w : Byte}

theorem fieldOpc_toNat (w : Byte) : (fieldOpc w).toNat = w.toNat / 32 := by
  have hw := w.isLt
  rw [fieldOpc, BitVec.extractLsb'_toNat, Nat.shiftRight_eq_div_pow]
  omega

theorem fieldOp1_toNat (w : Byte) : (fieldOp1 w).toNat = w.toNat / 8 % 4 := by
  rw [fieldOp1, BitVec.extractLsb'_toNat, Nat.shiftRight_eq_div_pow]

theorem fieldOp2_toNat (w : Byte) : (fieldOp2 w).toNat = w.toNat % 8 := by
  rw [fieldOp2, BitVec.extractLsb'_toNat, Nat.shiftRight_zero]

/-- Settles O2: each field is a division and a remainder, and the sum of the weighted fields is arithmetic. -/
theorem fieldsOfEveryWord : Obligations.FieldsOfEveryWord := by
  intro w
  have hopc := fieldOpc_toNat w
  have hop1 := fieldOp1_toNat w
  have hop2 := fieldOp2_toNat w
  exact ⟨hopc, hop1, hop2, by omega⟩

/-- Settles O1: the decoder computes on each of the ten words. -/
theorem wordsWrittenOutDecode : Obligations.WordsWrittenOutDecode :=
  ⟨rfl, rfl, rfl, rfl, rfl, rfl, rfl, rfl, rfl, rfl⟩

theorem buildInstr_op1 (op : Operation) (a : Op1) (b : Op2) : (buildInstr op a b).op1 = a := by cases op <;> rfl

theorem buildInstr_op2 (op : Operation) (a : Op1) (b : Op2) : (buildInstr op a b).op2 = b := by cases op <;> rfl

/-- A word decodes to an instruction with the word's own operand fields (R51). -/
theorem fields_of_decode (h : decode t w = .ok i) : i.op1 = fieldOp1 w ∧ i.op2 = fieldOp2 w := by
  have hi := Except.ok.inj (h.symm.trans (decode_of_lookup (lookup_of_decode h)))
  exact ⟨(congrArg Instr.op1 hi).trans (buildInstr_op1 ..), (congrArg Instr.op2 hi).trans (buildInstr_op2 ..)⟩

theorem toList_getElem_of_lookup (h : t.lookup k = some op) :
    ∃ hk : k.toNat < t.toList.length, t.toList[k.toNat] = some op :=
  ⟨t.length_toList.symm ▸ k.isLt, (Vector.getElem_toList _).trans h⟩

/-- Where no operation has two opcodes, no entry of the table after the one at `j` has its operation. -/
theorem not_lt_of_lookup (ht : t.oneOpcodeEach = true) (hj : t.lookup j = some op) (hk : t.lookup k = some op) :
    ¬ j.toNat < k.toNat := by
  have hnodup : (t.toList.filter Option.isSome).Nodup := of_decide_eq_true ht
  have hdistinct := List.pairwise_iff_getElem.mp (List.pairwise_filter.mp hnodup)
  obtain ⟨hjlen, hj⟩ := toList_getElem_of_lookup hj
  obtain ⟨hklen, hk⟩ := toList_getElem_of_lookup hk
  exact fun hlt => hdistinct _ _ hjlen hklen hlt (by rw [hj]; rfl) (by rw [hk]; rfl) (hj.trans hk.symm)

theorem lookup_inj (ht : t.oneOpcodeEach = true) (hj : t.lookup j = some op) (hk : t.lookup k = some op) : j = k :=
  BitVec.eq_of_toNat_eq
    (le_antisymm (not_lt.mp (not_lt_of_lookup ht hk hj)) (not_lt.mp (not_lt_of_lookup ht hj hk)))

/-- The two tables of the spec have no operation at two opcodes (R58, R59). -/
theorem profileTable_oneOpcodeEach (p : Profile) : (profileTable p).oneOpcodeEach = true := by
  cases p with
  | A => decide
  | B => decide

/-- Settles O5: the encoder's opcode is the word's, as the operation has only one, and the fields are the word's too. -/
theorem encodeOfDecodeIsTheWord : Obligations.EncodeOfDecodeIsTheWord := by
  refine ⟨profileTable_oneOpcodeEach, fun t w i ht hdec => ?_⟩
  obtain ⟨k, hk, henc⟩ := encode_of_wf (wf_of_decode hdec)
  obtain ⟨hop1, hop2⟩ := fields_of_decode hdec
  rw [henc, lookup_inj ht hk (lookup_of_decode hdec), hop1, hop2, word_of_fields]

theorem opcodeOf_eq_none_iff : t.opcodeOf op = none ↔ ∀ k, t.lookup k ≠ some op := by
  simp [OpTable.opcodeOf, mem_allOpcodes]

/-- The encoder refuses exactly the instructions whose operation stands at no opcode of the table (R60). -/
theorem encode_eq_none_iff : encode t i = none ↔ i.wf t = false := by
  rw [encode, Option.map_eq_none_iff, opcodeOf_eq_none_iff, ← Bool.not_eq_true, Instr.wf_iff_lookup, not_exists]

/-- Settles O6: the encoder and the decoder both go by the opcodes at which the table has the operation. -/
theorem illFormedInstructionsHaveNoWord : Obligations.IllFormedInstructionsHaveNoWord :=
  fun _ _ => ⟨encode_eq_none_iff.symm, decode_ne_of_not_wf⟩

end Sys2Proof
end

section
/-! PROOFS. HLT and UNKNOWN (spec: 43_control_transfer.md R112; 40_control_unit.md R80; 45_trace.md R131). -/

namespace Sys2Proof.Machine

/-- Settles O15: HLT is a `retire` of the state with `running` cleared; Profile B has no HLT. -/
theorem hltResult : Obligations.HltResult := by
  intro op1 op2
  refine ⟨fun w h => ?_, decode_ne_of_not_wf rfl, fun s => ?_⟩
  · have hk : tableA.lookup 7 = some .hlt := rfl
    exact decode_of_toNat hk h
  · exact ⟨_, exec_hlt op1 op2 s, retire_running .., retire_halt_pc .., keepsRegisters_retire _ _ _,
      keepsMemory_retire _ _ _, emits_retire _ _ _, retire_draws .., rfl⟩

/-- Settles O19: UNKNOWN is a `retire` of the state that advances `pc`; neither profile leaves an opcode to it. -/
theorem unassignedOpcodeLogsAndAdvances : Obligations.UnassignedOpcodeLogsAndAdvances := by
  refine ⟨fun p opc => Option.isSome_iff_ne_none.mp (profileTable_lookup_isSome p opc), fun s w hc hw hop => ?_⟩
  exact ⟨_, step_of_unassigned hc hw hop, retire_increment_pc .., keepsRegisters_retire _ _ s,
    keepsMemory_retire _ _ s, retire_running .., emits_retire _ _ s, retire_draws .., rfl⟩

end Sys2Proof.Machine
end

section
/-! PROOFS. The invariant of a run at its start (spec: 70_reset_and_hazards.md R170; 00_scope.md R7). -/

namespace Sys2Proof.Machine

/-- A reset starts a run inside the invariant whenever the program fits a positive capacity. -/
theorem runInv_launchState {inp : Inputs} (hpos : 0 < inp.cfg.progCapacity)
    (hfits : inp.prog.length ≤ inp.cfg.progCapacity) : RunInv (launchState inp) :=
  ⟨Memory.wf_ofBytes _ inp.initMem.length_toList.le, (Config.wf_iff _).mpr hpos, (Config.fits_iff _ _).mpr hfits,
    Nat.zero_le _, nofun⟩

theorem runInv_reset : RunInv State.reset := ⟨reset_memory_wf, rfl, rfl, Nat.zero_le _, nofun⟩

/-- Settles O42: a launch that is not refused leaves `launchState`, whose program fits. -/
theorem invariantHoldsAtReset : Obligations.InvariantHoldsAtReset := by
  refine ⟨runInv_reset, fun inp s h => ?_⟩
  obtain ⟨hpos, hfits, hnext⟩ | ⟨-, hrefused⟩ := launch_cases inp
  · cases hnext.symm.trans h
    exact runInv_launchState hpos hfits
  · cases hrefused.symm.trans h

end Sys2Proof.Machine
end
